-- ==== Sys2Proof/Word.lean ====
section
/-! DEFINITION. Sys2Proof/Word.lean: the two machine sizes of the spec, the 16-bit word (00_scope.md R6: registers,
`pc`, memory words and instructions) and the 8-bit byte (10_state.md R36, R37: host input and output). -/

namespace Sys2Proof

/-- A 16-bit word (R6, R8): addition wraps modulo 65536. -/
abbrev Word := BitVec 16

/-- An 8-bit byte of the host's input or output, or half of a memory word. -/
abbrev Byte := BitVec 8

end Sys2Proof
end

