-- ==== Sys2Proof/Config.lean ====
section
/-! DEFINITION. Sys2Proof/Config.lean: the parameters of the machine (00_scope.md section 4): those the source fixes (R6)
as constants, and those it leaves open (R7) as the fields of `Params`, which a machine is given and never changes. The
hardware draws no value (93_implementation_defined.md section 1), so there is no free value here. -/

namespace Sys2Proof

/-! ### Fixed by the source (R6) -/

/-- `ENTRY`: the value of `pc` at the start of a run (R6, R27). -/
def Config.entry : Word := 0x3000

/-- `MEMWORDS`: the number of memory words (R6, R32). -/
def Config.memWords : Nat := 65536

/-- The number of byte cells that hold the memory: two for each word (log entry 16). -/
def Config.memCells : Nat := 2 * Config.memWords

/-- What a byte cell that is not listed reads as: every word is 0x0000 at creation (R32). -/
def Config.unlisted : Byte := 0

/-- The trap vectors that select a service (R6, R181). -/
def Config.serviceVectors : List Byte := [0x20, 0x21, 0x22, 0x23, 0x24, 0x25]

/-! ### Left open by the source (R7) -/

/-- The 16 opcode names (R84). -/
inductive Opcode where
  | br | add | ld | st | jsr | and | ldr | str | rti | not | ldi | sti | jmp | res | lea | trap
deriving DecidableEq, Repr

/-- The open parameters of R7, which the model takes as an argument: the decoder and the encoder directly, `exec` and
`step` in the state they are given (log entry 26). -/
structure Params where
  /-- `OPCODE_MAP`: the opcode each 4-bit number selects, by number (R84). -/
  opcodeMap : Vector Opcode 16
  /-- `MODE_IMM`: the value of bit 5 of ADD and AND that selects the immediate form (R81). -/
  modeImm : Bool
  /-- `COND_P`, the pattern of the flag value POSITIVE (R28). -/
  condP : BitVec 3
  /-- `COND_Z`, the pattern of ZERO. -/
  condZ : BitVec 3
  /-- `COND_N`, the pattern of NEGATIVE. -/
  condN : BitVec 3
  /-- `KBSR_ADDR`: the address of the keyboard-status word (R34). -/
  kbsrAddr : Word
  /-- `KBDR_ADDR`: the address of the keyboard-data word (R34). -/
  kbdrAddr : Word
  /-- `IN_PROMPT`: the bytes the IN service writes before reading (R192). -/
  inPrompt : List Byte
  /-- `HALT_NOTICE`: the bytes the HALT service writes (R198). -/
  haltNotice : List Byte
deriving DecidableEq, Repr

end Sys2Proof
end

