-- ==== Sys2Proof/Machine/Params.lean ====
section
/-! DEFINITION. Sys2Proof/Machine/Params.lean: what the open parameters say, the constraints on every choice of them, and
their defaults (00_scope.md R7, 30_encoding.md R84). -/

namespace Sys2Proof

/-- The opcode a number selects (R84). -/
def Params.opcodeAt (p : Params) (n : BitVec 4) : Opcode := p.opcodeMap[n.toNat]'(n.isLt)

/-- The number that selects an opcode, the other direction of `opcodeAt` for a bijection (R84). -/
def Params.opcodeNumber (p : Params) (op : Opcode) : BitVec 4 := BitVec.ofNat 4 (p.opcodeMap.toList.idxOf op)

/-- Exactly one of the three bits is set. -/
abbrev OneHot (v : BitVec 3) : Prop := v = 0b001 ∨ v = 0b010 ∨ v = 0b100

/-- The constraints every choice of the parameters must meet (R7). -/
def Params.Valid (p : Params) : Prop :=
  (∀ op, ∃ n, p.opcodeAt n = op) ∧ (∀ m n, p.opcodeAt m = p.opcodeAt n → m = n) ∧ p.opcodeAt 15 = .trap ∧
  OneHot p.condP ∧ OneHot p.condZ ∧ OneHot p.condN ∧ p.condP ≠ p.condZ ∧ p.condP ≠ p.condN ∧ p.condZ ≠ p.condN ∧
  p.kbsrAddr ≠ p.kbdrAddr

/-- The defaults of R7 and R84. DESIGN CHOICE, unsafe: opcode numbers (log entry 1), mode bit (2), flag patterns (3),
device addresses (4), the two texts `Enter a character: ` and `HALT` with a line feed (5). -/
def Params.default : Params where
  opcodeMap := #v[.br, .add, .ld, .st, .jsr, .and, .ldr, .str, .rti, .not, .ldi, .sti, .jmp, .res, .lea, .trap]
  modeImm := true
  condP := 0b001
  condZ := 0b010
  condN := 0b100
  kbsrAddr := 0xFE00
  kbdrAddr := 0xFE02
  inPrompt := [0x45, 0x6E, 0x74, 0x65, 0x72, 0x20, 0x61, 0x20, 0x63, 0x68, 0x61, 0x72, 0x61, 0x63, 0x74, 0x65, 0x72, 0x3A, 0x20]
  haltNotice := [0x48, 0x41, 0x4C, 0x54, 0x0A]

end Sys2Proof
end

