-- ==== Sys2Proof/Syntax.lean ====
section
/-! DEFINITION. Sys2Proof/Syntax.lean: the instructions, one constructor for each of the 25 rows of
spec/opcode_table.json (30_encoding.md R90), with the operands of R86. Offsets and immediates are kept at the width of
their field; the meanings extend them (R82). -/

namespace Sys2Proof

/-- The eight general registers `R0` to `R7` (R20). -/
inductive Reg where
  | r0 | r1 | r2 | r3 | r4 | r5 | r6 | r7
deriving DecidableEq, Repr

/-- The instruction forms. -/
inductive Instr where
  /-- BR: condition mask and PCoffset9 (R130). -/
  | br (mask : BitVec 3) (off : BitVec 9)
  /-- ADD, register form (R111). -/
  | addReg (dr sr1 sr2 : Reg)
  /-- ADD, immediate form (R112). -/
  | addImm (dr sr1 : Reg) (imm : BitVec 5)
  /-- LD (R151). -/
  | ld (dr : Reg) (off : BitVec 9)
  /-- ST (R155). -/
  | st (sr : Reg) (off : BitVec 9)
  /-- JSR, PC-relative form (R134). -/
  | jsr (off : BitVec 11)
  /-- JSR, register form, written JSRR (R136). -/
  | jsrr (base : Reg)
  /-- AND, register form (R113). -/
  | andReg (dr sr1 sr2 : Reg)
  /-- AND, immediate form (R114). -/
  | andImm (dr sr1 : Reg) (imm : BitVec 5)
  /-- LDR (R153). -/
  | ldr (dr base : Reg) (off : BitVec 6)
  /-- STR (R157). -/
  | str (sr base : Reg) (off : BitVec 6)
  /-- RTI (R210). -/
  | rti
  /-- NOT (R115). -/
  | not (dr sr : Reg)
  /-- LDI (R152). -/
  | ldi (dr : Reg) (off : BitVec 9)
  /-- STI (R156). -/
  | sti (sr : Reg) (off : BitVec 9)
  /-- JMP (R132). -/
  | jmp (base : Reg)
  /-- RES, the reserved opcode (R211). -/
  | res
  /-- LEA (R154). -/
  | lea (dr : Reg) (off : BitVec 9)
  /-- TRAP GETC, vector 0x20 (R182). -/
  | trapGetc
  /-- TRAP OUT, vector 0x21 (R186). -/
  | trapOut
  /-- TRAP PUTS, vector 0x22 (R188). -/
  | trapPuts
  /-- TRAP IN, vector 0x23 (R192). -/
  | trapIn
  /-- TRAP PUTSP, vector 0x24 (R195). -/
  | trapPutsp
  /-- TRAP HALT, vector 0x25 (R198). -/
  | trapHalt
  /-- The general TRAP row (R180, R199); well-formed for the vectors that select no service. -/
  | trap (vect : BitVec 8)
deriving DecidableEq, Repr

end Sys2Proof
end

