-- ==== Sys2Proof/WellFormed.lean ====
section
/-! DEFINITION. Sys2Proof/WellFormed.lean: which terms of Instr are instructions of the table. Registers and fields
cannot be out of range by their types; the one check is that the general TRAP row stands only for the vectors that the
six specific rows leave (30_encoding.md R90: the first matching row is the right one). -/

namespace Sys2Proof

/-- The well-formed instructions (R90, R181; log entry 18). -/
def Instr.wf : Instr → Bool
  | .trap vect => !(Config.serviceVectors.contains vect)
  | .br _ _ | .addReg _ _ _ | .addImm _ _ _ | .ld _ _ | .st _ _ | .jsr _ | .jsrr _ | .andReg _ _ _
  | .andImm _ _ _ | .ldr _ _ _ | .str _ _ _ | .rti | .not _ _ | .ldi _ _ | .sti _ _ | .jmp _ | .res
  | .lea _ _ | .trapGetc | .trapOut | .trapPuts | .trapIn | .trapPutsp | .trapHalt => true

end Sys2Proof
end

