-- ==== Sys2Proof/Decode.lean ====
section
/-! DEFINITION. Sys2Proof/Decode.lean: the instruction decoder (30_encoding.md R80 to R90) and, after it, the encoder
of the same tables (R91). Both take the open parameters (R7): they use `OPCODE_MAP` (R84) and `MODE_IMM` (R81). -/

namespace Sys2Proof

/-- The register a 3-bit field names (R20). -/
def Reg.ofBits (v : BitVec 3) : Reg :=
  match v.toNat with
  | 0 => .r0
  | 1 => .r1
  | 2 => .r2
  | 3 => .r3
  | 4 => .r4
  | 5 => .r5
  | 6 => .r6
  | _ => .r7

/-- The opcode of an instruction word, by its bits [15:12] (R80, R84). -/
def opcodeOf (p : Params) (ir : Word) : Opcode := p.opcodeAt (ir.extractLsb' 12 4)

/-- `ir[11:9]` as a register: DR, or SR of ST, STI and STR. -/
def fieldDr (ir : Word) : Reg := Reg.ofBits (ir.extractLsb' 9 3)

/-- `ir[8:6]` as a register: SR1, SR of NOT, baseR. -/
def fieldBase (ir : Word) : Reg := Reg.ofBits (ir.extractLsb' 6 3)

/-- `ir[2:0]` as a register: SR2. -/
def fieldSr2 (ir : Word) : Reg := Reg.ofBits (ir.extractLsb' 0 3)

/-- `ir[11:9]` as the condition mask of BR. -/
def fieldMask (ir : Word) : BitVec 3 := ir.extractLsb' 9 3

/-- `ir[4:0]`: imm5. -/
def fieldImm5 (ir : Word) : BitVec 5 := ir.extractLsb' 0 5

/-- `ir[5:0]`: offset6. -/
def fieldOff6 (ir : Word) : BitVec 6 := ir.extractLsb' 0 6

/-- `ir[8:0]`: PCoffset9. -/
def fieldOff9 (ir : Word) : BitVec 9 := ir.extractLsb' 0 9

/-- `ir[10:0]`: PCoffset11. -/
def fieldOff11 (ir : Word) : BitVec 11 := ir.extractLsb' 0 11

/-- `ir[7:0]`: trapvector8. -/
def fieldVect (ir : Word) : BitVec 8 := ir.extractLsb' 0 8

/-- The instruction of a TRAP by its vector: the specific rows before the general one (R90, R181). -/
def decodeTrap (vect : BitVec 8) : Instr :=
  if vect = 0x20 then .trapGetc
  else if vect = 0x21 then .trapOut
  else if vect = 0x22 then .trapPuts
  else if vect = 0x23 then .trapIn
  else if vect = 0x24 then .trapPutsp
  else if vect = 0x25 then .trapHalt
  else .trap vect

/-- The decoder, total on all 65536 words (R87). Bits that no field covers are not looked at (R88). -/
def decode (p : Params) (ir : Word) : Instr :=
  match opcodeOf p ir with
  | .br => .br (fieldMask ir) (fieldOff9 ir)
  | .add =>
    if ir.getLsbD 5 = p.modeImm then .addImm (fieldDr ir) (fieldBase ir) (fieldImm5 ir)
    else .addReg (fieldDr ir) (fieldBase ir) (fieldSr2 ir)
  | .ld => .ld (fieldDr ir) (fieldOff9 ir)
  | .st => .st (fieldDr ir) (fieldOff9 ir)
  | .jsr => if ir.getLsbD 11 then .jsr (fieldOff11 ir) else .jsrr (fieldBase ir)
  | .and =>
    if ir.getLsbD 5 = p.modeImm then .andImm (fieldDr ir) (fieldBase ir) (fieldImm5 ir)
    else .andReg (fieldDr ir) (fieldBase ir) (fieldSr2 ir)
  | .ldr => .ldr (fieldDr ir) (fieldBase ir) (fieldOff6 ir)
  | .str => .str (fieldDr ir) (fieldBase ir) (fieldOff6 ir)
  | .rti => .rti
  | .not => .not (fieldDr ir) (fieldBase ir)
  | .ldi => .ldi (fieldDr ir) (fieldOff9 ir)
  | .sti => .sti (fieldDr ir) (fieldOff9 ir)
  | .jmp => .jmp (fieldBase ir)
  | .res => .res
  | .lea => .lea (fieldDr ir) (fieldOff9 ir)
  | .trap => decodeTrap (fieldVect ir)

/-- Why a list of bytes gives no instruction. Every word decodes (R87), so the only reason is a missing byte. -/
inductive DecodeError where
  /-- Fewer than two bytes: there is no whole instruction word (R80). -/
  | noWholeWord
deriving DecidableEq, Repr

/-- The decoder on bytes: an instruction is one word, its high byte first as in the image file (R57, R253; log entry
25); the rest of the bytes is given back. -/
def decodeBytes (p : Params) : List Byte → Except DecodeError (Instr × List Byte)
  | hi :: lo :: rest => .ok (decode p (hi ++ lo), rest)
  | _ => .error .noWholeWord

/-- The host's question about a row of the opcode table: the instruction of the low `nbits` bits of `w`, with the default
parameters, which are those of the table (R90). Every row has 16 bits; a number that does not fit one word is no
instruction. -/
def decodeTableWord (nbits w : Nat) : Option Instr :=
  let v := w % 2 ^ nbits
  if v < 65536 then
    match decodeBytes .default [BitVec.ofNat 8 (v / 256), BitVec.ofNat 8 v] with
    | .ok r => some r.1
    | .error _ => none
  else none

/-- The 3-bit number of a register (R20). -/
def Reg.bits : Reg → BitVec 3
  | .r0 => 0
  | .r1 => 1
  | .r2 => 2
  | .r3 => 3
  | .r4 => 4
  | .r5 => 5
  | .r6 => 6
  | .r7 => 7

/-- The word of an ADD or AND in register form (R91). -/
def encodeAluReg (p : Params) (op : Opcode) (dr sr1 sr2 : Reg) : Word :=
  p.opcodeNumber op ++ dr.bits ++ sr1.bits ++ BitVec.ofBool (!p.modeImm) ++ 0#2 ++ sr2.bits

/-- The word of an ADD or AND in immediate form (R91). -/
def encodeAluImm (p : Params) (op : Opcode) (dr sr1 : Reg) (imm : BitVec 5) : Word :=
  p.opcodeNumber op ++ dr.bits ++ sr1.bits ++ BitVec.ofBool p.modeImm ++ imm

/-- The word of the format `PCREL` (R81, R91). -/
def encodePcRel (p : Params) (op : Opcode) (r : Reg) (off : BitVec 9) : Word :=
  p.opcodeNumber op ++ r.bits ++ off

/-- The word of the format `BASE` (R81, R91). -/
def encodeBase (p : Params) (op : Opcode) (r base : Reg) (off : BitVec 6) : Word :=
  p.opcodeNumber op ++ r.bits ++ base.bits ++ off

/-- The word of a TRAP (R91, R92). -/
def encodeTrap (p : Params) (vect : BitVec 8) : Word := p.opcodeNumber .trap ++ 0#4 ++ vect

/-- The encoder: the word the notation of R91 gives, with 1s in NOT [5:0] and 0s in all other ignored bits (R88; log
entry 22). -/
def encode (p : Params) : Instr → Word
  | .br mask off => p.opcodeNumber .br ++ mask ++ off
  | .addReg dr sr1 sr2 => encodeAluReg p .add dr sr1 sr2
  | .addImm dr sr1 imm => encodeAluImm p .add dr sr1 imm
  | .ld dr off => encodePcRel p .ld dr off
  | .st sr off => encodePcRel p .st sr off
  | .jsr off => p.opcodeNumber .jsr ++ 1#1 ++ off
  | .jsrr base => p.opcodeNumber .jsr ++ 0#3 ++ base.bits ++ 0#6
  | .andReg dr sr1 sr2 => encodeAluReg p .and dr sr1 sr2
  | .andImm dr sr1 imm => encodeAluImm p .and dr sr1 imm
  | .ldr dr base off => encodeBase p .ldr dr base off
  | .str sr base off => encodeBase p .str sr base off
  | .rti => p.opcodeNumber .rti ++ 0#12
  | .not dr sr => p.opcodeNumber .not ++ dr.bits ++ sr.bits ++ 63#6
  | .ldi dr off => encodePcRel p .ldi dr off
  | .sti sr off => encodePcRel p .sti sr off
  | .jmp base => p.opcodeNumber .jmp ++ 0#3 ++ base.bits ++ 0#6
  | .res => p.opcodeNumber .res ++ 0#12
  | .lea dr off => encodePcRel p .lea dr off
  | .trapGetc => encodeTrap p 0x20
  | .trapOut => encodeTrap p 0x21
  | .trapPuts => encodeTrap p 0x22
  | .trapIn => encodeTrap p 0x23
  | .trapPutsp => encodeTrap p 0x24
  | .trapHalt => encodeTrap p 0x25
  | .trap vect => encodeTrap p vect

/-- The opcode an instruction is encoded with (R84). -/
def Instr.opcode : Instr → Opcode
  | .br _ _ => .br
  | .addReg _ _ _ | .addImm _ _ _ => .add
  | .ld _ _ => .ld
  | .st _ _ => .st
  | .jsr _ | .jsrr _ => .jsr
  | .andReg _ _ _ | .andImm _ _ _ => .and
  | .ldr _ _ _ => .ldr
  | .str _ _ _ => .str
  | .rti => .rti
  | .not _ _ => .not
  | .ldi _ _ => .ldi
  | .sti _ _ => .sti
  | .jmp _ => .jmp
  | .res => .res
  | .lea _ _ => .lea
  | .trapGetc | .trapOut | .trapPuts | .trapIn | .trapPutsp | .trapHalt | .trap _ => .trap

end Sys2Proof
end

