-- ==== Sys2Proof/Machine/State.lean ====
section
/-! DEFINITION. Sys2Proof/Machine/State.lean: everything the spec gives the machine, as plain data (10_state.md), the
reasons a step can stop, and the state after reset (R39). -/

namespace Sys2Proof.Machine

/-- The condition flag: exactly one of three values at all times (R28). -/
inductive Cond where
  | positive | zero | negative
deriving DecidableEq, Repr

/-- The eight general registers, 16 bits each (R20). -/
structure Regs where
  r0 : Word
  r1 : Word
  r2 : Word
  r3 : Word
  r4 : Word
  r5 : Word
  r6 : Word
  r7 : Word
deriving DecidableEq, Repr

/-- The memory as byte cells (Host.Cell): the word at address `a` is the cells `2*a` (bits [15:8]) and `2*a+1` (bits
[7:0]) (R32). The pairing is a DESIGN CHOICE nothing can observe (R57; log entry 16). Safe. -/
abbrev Memory := List Host.Cell

/-- The cells rise strictly from `lo` on, are cells of the memory, and list no value that an unlisted cell reads as. -/
def Memory.wfFrom : Nat → Memory → Bool
  | _, [] => true
  | lo, (k, v) :: rest =>
    decide (lo ≤ k) && decide (k < Config.memCells) && decide (v ≠ Config.unlisted) && Memory.wfFrom (k + 1) rest

/-- The canonical form of the memory: equal memories are equal lists. -/
def Memory.wf (m : Memory) : Bool := Memory.wfFrom 0 m

/-- The state of the machine (10_state.md, opening paragraph), with the host's two streams and, as the model's own
fields, what the host will append to `In` (log entry 13) and the parameters of the machine (log entry 26). -/
structure State where
  /-- `R0` to `R7` (R20). -/
  regs : Regs
  /-- The program counter: between steps the address of the next instruction, inside a step the incremented PC (R25). -/
  pc : Word
  /-- The condition-flag register (R28). -/
  cond : Cond
  /-- The run/halt bit (R33). -/
  running : Bool
  /-- The 65536 words, the two device words among them (R32, R34). -/
  mem : Memory
  /-- `In`: the bytes the host has supplied and the core has not taken, oldest first (R36). -/
  input : List Byte
  /-- `Out`: the bytes written so far, oldest first (R37). -/
  output : List Byte
  /-- The model's own field: what the host appends to `In` before each coming step, the next one first (R36, R264; log
  entry 13). -/
  arrivals : List (List Byte)
  /-- The model's own field: the open parameters this machine is built with (R7). No step changes it (log entry 26). -/
  params : Params
deriving DecidableEq, Repr

/-- Why a step stops the machine. The hardware itself has no fault (R220). -/
inductive Fault where
  /-- Raised by `step` alone, when `running` = 0: the machine takes no step there, its terminal state (R33, R228; log
  entry 15). Safe: the spec has no next state either. -/
  | halted
deriving DecidableEq, Repr

/-- Why a step refuses an instruction. Nothing refuses: every word has a meaning (R228). -/
inductive Refusal where
  /-- Raised by an arm of `exec` whose instruction has no meaning yet; no arm is left so. Safe. -/
  | notModelled (mnemonic : String)
deriving DecidableEq, Repr

/-- The answer of a meaning and of a step. -/
abbrev Result := Host.Outcome State Fault Refusal

/-- A machine with the parameters `p` right after its creation, before any image is loaded (R39, R250, R251 stages 1 and
2). `In` is host-supplied in the spec; here it is empty and nothing will arrive. DESIGN CHOICE (log entries 13 and 14).
Unsafe. -/
def State.resetWith (p : Params) : State where
  regs := { r0 := 0, r1 := 0, r2 := 0, r3 := 0, r4 := 0, r5 := 0, r6 := 0, r7 := 0 }
  pc := Config.entry
  cond := .zero
  running := true
  mem := []
  input := []
  output := []
  arrivals := []
  params := p

/-- The machine right after its creation, with the default parameters (log entries 1 to 5). -/
def State.reset : State := State.resetWith .default

end Sys2Proof.Machine
end

