-- ==== Sys2Proof/Machine/Flags.lean ====
section
/-! DEFINITION. Sys2Proof/Machine/Flags.lean: the condition flag computed from a 16-bit value, its pattern, and the test
BR makes of it (10_state.md R28, R29). -/

namespace Sys2Proof.Machine

/-- The flag value of a 16-bit pattern (R29): zero, else negative when bit 15 is set, else positive. -/
def condOf (v : Word) : Cond :=
  if v = 0 then .zero else if v.getLsbD 15 then .negative else .positive

/-- The 3-bit pattern of a flag value: `COND_P`, `COND_Z` or `COND_N` (R28). -/
def condBits (p : Params) : Cond → BitVec 3
  | .positive => p.condP
  | .zero => p.condZ
  | .negative => p.condN

/-- BR's test: `(cond_bits & condition_flag) != 0` (R28, R130). -/
def condHolds (p : Params) (mask : BitVec 3) (c : Cond) : Bool := (mask &&& condBits p c) != 0

end Sys2Proof.Machine
end

