-- ==== Sys2Proof/Machine/Operands.lean ====
section
/-! DEFINITION. Sys2Proof/Machine/Operands.lean: sign and zero extension (30_encoding.md R82, R83), the halves of a word
(R57), and the address adder (42_load_store.md R150, 20_memory.md R54). -/

namespace Sys2Proof.Machine

/-- `sext_N(v)`: when the field's top bit is 1 all higher bits are filled with ones, else with zeros (R82). -/
def sext {n : Nat} (v : BitVec n) : Word :=
  if v.getLsbD (n - 1) then v.setWidth 16 ||| (0xFFFF#16 <<< n) else v.setWidth 16

/-- `zext_8(v)`: a byte as a word (R83). -/
def zext8 (v : Byte) : Word := v.setWidth 16

/-- Bits [15:8] of a word. -/
def highByte (w : Word) : Byte := w.extractLsb' 8 8

/-- Bits [7:0] of a word. -/
def lowByte (w : Word) : Byte := w.extractLsb' 0 8

/-- The PC-relative address or target: the incremented PC plus the sign-extended offset, modulo 65536 (R150, R54). -/
def pcRel {n : Nat} (pc : Word) (off : BitVec n) : Word := pc + sext off

/-- The base + offset address, modulo 65536 (R150, R54). -/
def baseOff (base : Word) (off : BitVec 6) : Word := base + sext off

end Sys2Proof.Machine
end

