-- ==== Sys2Proof/Machine/Ops.lean ====
section
/-! DEFINITION. Sys2Proof/Machine/Ops.lean: the named operations over registers, memory, the keyboard and the host's
streams. Taking an exception does not exist on this hardware (60_exceptions.md R220); what it has in its place is the
entry of TRAP (R226), `State.link`, and nothing to return from (R227). -/

namespace Sys2Proof.Machine

/-! ### Registers (R20, R21) -/

/-- `x[i]`. -/
def Regs.get (x : Regs) : Reg → Word
  | .r0 => x.r0
  | .r1 => x.r1
  | .r2 => x.r2
  | .r3 => x.r3
  | .r4 => x.r4
  | .r5 => x.r5
  | .r6 => x.r6
  | .r7 => x.r7

/-- `x[i] <- v`. -/
def Regs.set (x : Regs) (r : Reg) (v : Word) : Regs :=
  match r with
  | .r0 => { x with r0 := v }
  | .r1 => { x with r1 := v }
  | .r2 => { x with r2 := v }
  | .r3 => { x with r3 := v }
  | .r4 => { x with r4 := v }
  | .r5 => { x with r5 := v }
  | .r6 => { x with r6 := v }
  | .r7 => { x with r7 := v }

/-- Read a general register (R21). -/
def State.reg (s : State) (r : Reg) : Word := s.regs.get r

/-- Write a general register; nothing else changes, `cond` in particular (R21). -/
def State.setReg (s : State) (r : Reg) (v : Word) : State := { s with regs := s.regs.set r v }

/-- `setcc(i)`: recompute `cond` from the value now in the register (R29). -/
def State.setcc (s : State) (r : Reg) : State := { s with cond := condOf (s.reg r) }

/-- The register write and `setcc` of every instruction that has a DR field (R29, R30). -/
def State.writeResult (s : State) (dr : Reg) (v : Word) : State := (s.setReg dr v).setcc dr

/-! ### Storage: one byte cell, then one word -/

/-- Read one byte cell; an unlisted one reads as R32 says. -/
def Memory.readByte : Memory → Nat → Byte
  | [], _ => Config.unlisted
  | c :: rest, k => if c.1 = k then c.2 else Memory.readByte rest k

/-- Drop the entry of a cell. -/
def Memory.eraseByte : Memory → Nat → Memory
  | [], _ => []
  | c :: rest, k => if c.1 = k then Memory.eraseByte rest k else c :: Memory.eraseByte rest k

/-- Put an entry in front of the first entry of a higher cell. -/
def Memory.insertByte : Memory → Nat → Byte → Memory
  | [], k, v => [(k, v)]
  | c :: rest, k, v => if k < c.1 then (k, v) :: c :: rest else c :: Memory.insertByte rest k v

/-- Write one byte cell, keeping the canonical form. -/
def Memory.writeByte (m : Memory) (k : Nat) (v : Byte) : Memory :=
  if v = Config.unlisted then m.eraseByte k else (m.eraseByte k).insertByte k v

/-- The cell that holds bits [15:8] of the word at an address (log entry 16). -/
def highCell (a : Word) : Nat := 2 * a.toNat

/-- The cell that holds bits [7:0] of the word at an address (log entry 16). -/
def lowCell (a : Word) : Nat := 2 * a.toNat + 1

/-- `mem[a]`, the raw storage word (R32). -/
def Memory.readWord (m : Memory) (a : Word) : Word := m.readByte (highCell a) ++ m.readByte (lowCell a)

/-- `mem[a] <- v` (R32). -/
def Memory.writeWord (m : Memory) (a : Word) (v : Word) : Memory :=
  (m.writeByte (highCell a) (highByte v)).writeByte (lowCell a) (lowByte v)

/-! ### The memory bus (R50 to R53) -/

/-- `KbdPoll()`: take a byte of `In` if there is one and set the two device words, else clear the status word (R51; log
entry 6). -/
def State.kbdPoll (s : State) : State :=
  match s.input with
  | [] => { s with mem := s.mem.writeWord s.params.kbsrAddr 0 }
  | b :: rest =>
    { s with
      mem := (s.mem.writeWord s.params.kbsrAddr 0x8000).writeWord s.params.kbdrAddr (zext8 b)
      input := rest }

/-- What a bus read of an address does before the word is read (R50, R52). -/
def State.busAction (s : State) (a : Word) : State := if a = s.params.kbsrAddr then s.kbdPoll else s

/-- `MemRead(a, 1)`: the word, and the state after the device action (R50). -/
def State.memRead (s : State) (a : Word) : Word × State :=
  ((s.busAction a).mem.readWord a, s.busAction a)

/-- `MemWrite(a, 1, v)`: a plain store at every address (R53). -/
def State.memWrite (s : State) (a v : Word) : State := { s with mem := s.mem.writeWord a v }

/-- The fetch: the word at `pc` read through the bus, then `pc` incremented modulo 65536 (R26). -/
def State.fetch (s : State) : Word × State :=
  ((s.memRead s.pc).1, { (s.memRead s.pc).2 with pc := (s.memRead s.pc).2.pc + 1 })

/-! ### Control transfer and the entry of TRAP -/

/-- `pc <- target` (R25). -/
def State.setPc (s : State) (target : Word) : State := { s with pc := target }

/-- `x[7] <- pc`: the link of JSR and of TRAP, and the whole of TRAP's entry (R134, R180, R226). `cond` is not changed
(R30). -/
def State.link (s : State) : State := s.setReg .r7 s.pc

/-! ### The host's streams (R36, R37) -/

/-- `Out.write(b)` for each byte in order (R37). -/
def State.emit (s : State) (bs : List Byte) : State := { s with output := s.output ++ bs }

/-- The host's move before a step: it appends the bytes that `arrivals` gives for this moment (R36, R264; log entry 13). -/
def State.hostTurn (s : State) : State :=
  match s.arrivals with
  | [] => s
  | bs :: rest => { s with input := s.input ++ bs, arrivals := rest }

/-- A held step: `pc` is put back to the instruction, so that the step leaves the core as it was before the fetch and
the next step runs the instruction again (R183; log entry 11). -/
def State.hold (s : State) : State := { s with pc := s.pc - 1 }

/-- Wait for a byte and go on with it: with `In` empty the step is held, else the oldest byte is taken (R36, R183). -/
def State.withByte (s : State) (k : Byte → State → State) : Result :=
  match s.input with
  | [] => .next s.hold
  | b :: rest => .next (k b { s with input := rest })

end Sys2Proof.Machine
end

