-- ==== Sys2Proof/Machine/Alu.lean ====
section
/-! DEFINITION. Sys2Proof/Machine/Alu.lean: ADD, AND and NOT (40_alu.md R110 to R115). In every meaning `s.pc` is the
incremented PC (R25; log entry 24). -/

namespace Sys2Proof.Machine

/-- ADD, register form (R111): both sources are read before DR is written. -/
def execAddReg (dr sr1 sr2 : Reg) (s : State) : Result := .next (s.writeResult dr (s.reg sr1 + s.reg sr2))

/-- ADD, immediate form (R112). -/
def execAddImm (dr sr1 : Reg) (imm : BitVec 5) (s : State) : Result := .next (s.writeResult dr (s.reg sr1 + sext imm))

/-- AND, register form (R113). -/
def execAndReg (dr sr1 sr2 : Reg) (s : State) : Result := .next (s.writeResult dr (s.reg sr1 &&& s.reg sr2))

/-- AND, immediate form (R114). -/
def execAndImm (dr sr1 : Reg) (imm : BitVec 5) (s : State) : Result := .next (s.writeResult dr (s.reg sr1 &&& sext imm))

/-- NOT (R115). -/
def execNot (dr sr : Reg) (s : State) : Result := .next (s.writeResult dr (~~~(s.reg sr)))

end Sys2Proof.Machine
end

