-- ==== Sys2Proof/Machine/Control.lean ====
section
/-! DEFINITION. Sys2Proof/Machine/Control.lean: BR, JMP, JSR and JSRR (41_control.md R130 to R138). -/

namespace Sys2Proof.Machine

/-- BR (R130): taken when the mask has the current flag's bit. -/
def execBr (mask : BitVec 3) (off : BitVec 9) (s : State) : Result :=
  .next (if condHolds s.params mask s.cond then s.setPc (pcRel s.pc off) else s)

/-- JMP (R132). -/
def execJmp (base : Reg) (s : State) : Result := .next (s.setPc (s.reg base))

/-- JSR, PC-relative form (R134): the link, then the target from the incremented PC. -/
def execJsr (off : BitVec 11) (s : State) : Result := .next (s.link.setPc (pcRel s.link.pc off))

/-- JSR, register form (R136): the link first, then `base` is read, so JSRR R7 falls through (log entry 9). -/
def execJsrr (base : Reg) (s : State) : Result := .next (s.link.setPc (s.link.reg base))

end Sys2Proof.Machine
end

