-- ==== Sys2Proof/Machine/LoadStore.lean ====
section
/-! DEFINITION. Sys2Proof/Machine/LoadStore.lean: LD, LDI, LDR, LEA, ST, STI and STR (42_load_store.md R150 to R157). -/

namespace Sys2Proof.Machine

/-- Load the word at an address through the bus into DR and set the flags (R150). -/
def State.load (s : State) (dr : Reg) (a : Word) : State := (s.memRead a).2.writeResult dr (s.memRead a).1

/-- LD (R151). -/
def execLd (dr : Reg) (off : BitVec 9) (s : State) : Result := .next (s.load dr (pcRel s.pc off))

/-- LDI (R152): the pointer through the bus, then the operand through the bus. -/
def execLdi (dr : Reg) (off : BitVec 9) (s : State) : Result :=
  .next ((s.memRead (pcRel s.pc off)).2.load dr (s.memRead (pcRel s.pc off)).1)

/-- LDR (R153): the address is formed from the old value of `base`. -/
def execLdr (dr base : Reg) (off : BitVec 6) (s : State) : Result := .next (s.load dr (baseOff (s.reg base) off))

/-- LEA (R154): the address itself, with no access. -/
def execLea (dr : Reg) (off : BitVec 9) (s : State) : Result := .next (s.writeResult dr (pcRel s.pc off))

/-- ST (R155). -/
def execSt (sr : Reg) (off : BitVec 9) (s : State) : Result := .next (s.memWrite (pcRel s.pc off) (s.reg sr))

/-- STI (R156): the pointer through the bus, then the store. -/
def execSti (sr : Reg) (off : BitVec 9) (s : State) : Result :=
  .next ((s.memRead (pcRel s.pc off)).2.memWrite (s.memRead (pcRel s.pc off)).1 (s.reg sr))

/-- STR (R157). -/
def execStr (sr base : Reg) (off : BitVec 6) (s : State) : Result :=
  .next (s.memWrite (baseOff (s.reg base) off) (s.reg sr))

end Sys2Proof.Machine
end

