-- ==== Sys2Proof/Machine/Reserved.lean ====
section
/-! DEFINITION. Sys2Proof/Machine/Reserved.lean: the two undefined opcodes, executed as no-ops (44_reserved.md R210, R211;
log entry 8). -/

namespace Sys2Proof.Machine

/-- RTI (R210): nothing after the fetch. -/
def execRti (s : State) : Result := .next s

/-- RES (R211): nothing after the fetch. -/
def execRes (s : State) : Result := .next s

end Sys2Proof.Machine
end

