-- ==== Sys2Proof/Machine/Trap.lean ====
section
/-! DEFINITION. Sys2Proof/Machine/Trap.lean: TRAP and the six services of the trap dispatcher (43_trap.md R180 to R199). -/

namespace Sys2Proof.Machine

/-! ### Strings in memory -/

/-- What PUTS writes for a word: its low byte (R188). -/
def putsBytes (w : Word) : List Byte := [lowByte w]

/-- What PUTSP writes for a word: the low byte, then the high byte if it is not zero (R195). -/
def putspBytes (w : Word) : List Byte := if highByte w = 0 then [lowByte w] else [lowByte w, highByte w]

/-- The loop of PUTS and PUTSP, at most `fuel` reads: each word through the bus, up to the first zero word, the address
wrapping (R188, R195; log entry 10). -/
def scanLoop (bytes : Word → List Byte) : Nat → Word → State → State
  | 0, _, s => s
  | fuel + 1, a, s =>
    if (s.memRead a).1 = 0 then (s.memRead a).2
    else scanLoop bytes fuel (a + 1) ((s.memRead a).2.emit (bytes (s.memRead a).1))

/-- How many reads the loop makes at most: to KBSR_ADDR, and once round the memory for each byte of `In` (R189; log
entry 23). -/
def scanBound (a : Word) (s : State) : Nat := s.input.length * Config.memWords + (s.params.kbsrAddr - a).toNat + 1

/-- The whole loop, from address `a` (R188, R195). The bound is never what ends it (R189; log entry 23). -/
def scanString (bytes : Word → List Byte) (a : Word) (s : State) : State := scanLoop bytes (scanBound a s) a s

/-! ### The services -/

/-- A byte read by GETC or IN goes to R0, zero-extended, and sets the flags (R182, R192). -/
def State.receive (s : State) (b : Byte) : State := s.writeResult .r0 (zext8 b)

/-- GETC (R182). -/
def execTrapGetc (s : State) : Result := s.withByte fun b t => t.link.receive b

/-- OUT (R186). -/
def execTrapOut (s : State) : Result := .next (s.link.emit [lowByte (s.link.reg .r0)])

/-- PUTS (R188): the link, then the string at R0. -/
def execTrapPuts (s : State) : Result := .next (scanString putsBytes (s.link.reg .r0) s.link)

/-- IN (R192): prompt, read, echo, register, flags. -/
def execTrapIn (s : State) : Result := s.withByte fun b t => ((t.link.emit s.params.inPrompt).emit [b]).receive b

/-- PUTSP (R195). -/
def execTrapPutsp (s : State) : Result := .next (scanString putspBytes (s.link.reg .r0) s.link)

/-- HALT (R198): the notice, then `running <- 0`. -/
def execTrapHalt (s : State) : Result := .next { s.link.emit s.params.haltNotice with running := false }

/-- TRAP in general (R180): the link, then the service the vector selects (R181); a vector that selects none links and
does nothing else (R199). The decoder gives this form only for such vectors (log entry 18). -/
def execTrap (vect : BitVec 8) (s : State) : Result :=
  if vect = 0x20 then execTrapGetc s
  else if vect = 0x21 then execTrapOut s
  else if vect = 0x22 then execTrapPuts s
  else if vect = 0x23 then execTrapIn s
  else if vect = 0x24 then execTrapPutsp s
  else if vect = 0x25 then execTrapHalt s
  else .next s.link

end Sys2Proof.Machine
end

