-- ==== Sys2Proof/Machine/Step.lean ====
section
/-! DEFINITION. Sys2Proof/Machine/Step.lean: the execution loop's one step (60_exceptions.md R228), and the host's way of
placing an instruction where the step fetches. -/

namespace Sys2Proof.Machine

/-- One step (R10, R228): the host's move between steps (R36), then fetch, increment, decode and execute to completion.
When `running` = 0 there is no step (R33; log entry 15). -/
def step (s : State) : Host.Outcome State Fault Refusal :=
  if s.running then exec (decode s.params s.hostTurn.fetch.1) s.hostTurn.fetch.2 else .fault .halted

/-- `s` with the instruction word of the low `nbits` bits of `w` stored at `pc`, and running, so that the very next step
fetches and runs it (log entry 17: it stands for an image load, R254), as the parameters of `s` decode it. At `pc` = KBSR_ADDR the keyboard poll decides
what is fetched (R51), whatever is stored. -/
def State.withFetchWord (s : State) (nbits w : Nat) : State :=
  { s with mem := s.mem.writeWord s.pc (BitVec.ofNat 16 (w % 2 ^ nbits)), running := true }

end Sys2Proof.Machine
end

