-- ==== Sys2Proof/Machine/Image.lean ====
section
/-! DEFINITION. Sys2Proof/Machine/Image.lean: what the host does before the first step: the image format, loading one
image and several (70_reset_and_hazards.md R251 to R255). -/

namespace Sys2Proof.Machine

/-- The 16-bit words of a file, high byte first; a trailing single byte is no word (R253, R254). -/
def imageWords : List Byte → List Word
  | hi :: lo :: rest => (hi ++ lo) :: imageWords rest
  | _ => []

/-- Store words from an address on, up to and with the last address 0xFFFF, never wrapping (R254; log entry 17). -/
def storeWords : Nat → List Word → Memory → Memory
  | _, [], m => m
  | a, w :: ws, m => if a < Config.memWords then storeWords (a + 1) ws (m.writeWord (BitVec.ofNat 16 a) w) else m

/-- Load one image: file word 0 is the origin, the others are stored from it on; a file with no whole word loads
nothing (R254). -/
def State.loadImage (s : State) (file : List Byte) : State :=
  match imageWords file with
  | [] => s
  | origin :: ws => { s with mem := storeWords origin.toNat ws s.mem }

/-- Load several images in the order given; a later word replaces an earlier one (R255). -/
def State.loadImages (s : State) (files : List (List Byte)) : State := files.foldl State.loadImage s

/-- The state before the first step of a run: a machine with the parameters `p` is created, the images are loaded, and
the host has queued `input` and will append `arrivals` (R251, R264). -/
def State.boot (p : Params) (files : List (List Byte)) (input : List Byte) (arrivals : List (List Byte)) : State :=
  { (State.resetWith p).loadImages files with input := input, arrivals := arrivals }

end Sys2Proof.Machine
end

