-- ==== Sys2Proof/Safety.lean ====
section
/-! DEFINITION. Sys2Proof/Safety.lean: the terms the claims use: the invariant, what a state leaves as another has it,
and a string in memory. -/

namespace Sys2Proof.Machine

/-- The invariant of the machine: the memory is in its canonical form (log entry 16) and the parameters meet the
constraints of R7 (log entry 26). -/
def State.Inv (s : State) : Prop := s.mem.wf = true ∧ s.params.Valid

/-- A safe state: the machine can take its next step (R228: a step always yields a next state). -/
def State.CanStep (s : State) : Prop := ∃ t, step s = .next t

/-- `t` is reached from `s` by some number of steps. -/
inductive Reaches : State → State → Prop where
  | refl (s : State) : Reaches s s
  | next {s t u : State} : Reaches s t → step t = .next u → Reaches s u

/-- The same state with the run bit set to `b`. -/
def State.withRunning (s : State) (b : Bool) : State := { s with running := b }

/-- The same state with `before` written to the output before everything else. -/
def State.withOutputBefore (s : State) (before : List Byte) : State := { s with output := before ++ s.output }

/-- Every byte of memory reads as before. -/
def SameMem (s t : State) : Prop := ∀ k, t.mem.readByte k = s.mem.readByte k

/-- Every byte of memory reads as before, but those of the word at `a`. -/
def SameMemBut (a : Word) (s t : State) : Prop :=
  ∀ k, k ≠ highCell a → k ≠ lowCell a → t.mem.readByte k = s.mem.readByte k

/-- Every byte of memory reads as before, but those of the two device words. -/
def SameMemButDevice (s t : State) : Prop :=
  ∀ k, k ≠ highCell s.params.kbsrAddr → k ≠ lowCell s.params.kbsrAddr → k ≠ highCell s.params.kbdrAddr →
    k ≠ lowCell s.params.kbdrAddr → t.mem.readByte k = s.mem.readByte k

/-- Every general register is unchanged. -/
def SameRegs (s t : State) : Prop := ∀ r, t.reg r = s.reg r

/-- Every general register but `dr` is unchanged. -/
def SameRegsBut (dr : Reg) (s t : State) : Prop := ∀ r, r ≠ dr → t.reg r = s.reg r

/-- `pc`, the run bit and the parameters of the machine are unchanged. -/
def SameControl (s t : State) : Prop := t.pc = s.pc ∧ t.running = s.running ∧ t.params = s.params

/-- The host's streams are unchanged. -/
def SameStreams (s t : State) : Prop := t.input = s.input ∧ t.output = s.output ∧ t.arrivals = s.arrivals

/-- The frame of an instruction that writes DR and sets the flags from it (R29, R30), and does nothing else. -/
def WritesOnlyReg (dr : Reg) (s t : State) : Prop :=
  t.cond = condOf (t.reg dr) ∧ SameRegsBut dr s t ∧ SameMem s t ∧ SameControl s t ∧ SameStreams s t

/-- The frame of an instruction that stores `v` in the word at `a`, and does nothing else. -/
def WritesOnlyWord (a v : Word) (s t : State) : Prop :=
  t.mem.readWord a = v ∧ SameMemBut a s t ∧ SameRegs s t ∧ t.cond = s.cond ∧ SameControl s t ∧ SameStreams s t

/-- The frame of an instruction that moves `pc` to `target`, and does nothing else. -/
def WritesOnlyPc (target : Word) (s t : State) : Prop :=
  t.pc = target ∧ SameRegs s t ∧ t.cond = s.cond ∧ t.running = s.running ∧ t.params = s.params ∧ SameMem s t ∧
    SameStreams s t

/-- The frame of a link that moves `pc` to `target`: `R7` receives the incremented PC, and nothing else changes. -/
def LinksAndJumps (target : Word) (s t : State) : Prop :=
  t.pc = target ∧ t.reg .r7 = s.pc ∧ SameRegsBut .r7 s t ∧ t.cond = s.cond ∧ t.running = s.running ∧
    t.params = s.params ∧ SameMem s t ∧ SameStreams s t

/-- The frame of a service that writes to the output the bytes `bs`: `R7` receives the incremented PC, and nothing else
changes (R180). -/
def LinksAndEmits (bs : List Byte) (s t : State) : Prop :=
  t.reg .r7 = s.pc ∧ t.output = s.output ++ bs ∧ SameRegsBut .r7 s t ∧ t.cond = s.cond ∧ SameControl s t ∧
    SameMem s t ∧ t.input = s.input ∧ t.arrivals = s.arrivals

/-- `v` is the exact integer `x` wrapped to 16 bits (R54, R110). -/
def Wraps (v : Word) (x : Int) : Prop := (v.toNat : Int) = x % 65536

/-- The words from address `a` on are the non-zero words `ws` and then a zero word, and none of them is the
keyboard-status word (R188, R195). -/
def StringAt (s : State) : Word → List Word → Prop
  | a, [] => a ≠ s.params.kbsrAddr ∧ s.mem.readWord a = 0
  | a, w :: ws => a ≠ s.params.kbsrAddr ∧ w ≠ 0 ∧ s.mem.readWord a = w ∧ StringAt s (a + 1) ws

/-! ### The spec's tables of who writes what, over instructions -/

/-- The general registers an instruction writes: its DR, or the implicit ones of R22. -/
def writtenRegs : Instr → List Reg
  | .addReg dr _ _ | .addImm dr _ _ | .andReg dr _ _ | .andImm dr _ _ | .not dr _ => [dr]
  | .ld dr _ | .ldi dr _ | .ldr dr _ _ | .lea dr _ => [dr]
  | .jsr _ | .jsrr _ => [.r7]
  | .trapGetc | .trapIn => [.r7, .r0]
  | .trapOut | .trapPuts | .trapPutsp | .trapHalt | .trap _ => [.r7]
  | .br _ _ | .jmp _ | .st _ _ | .sti _ _ | .str _ _ _ | .rti | .res => []

/-- The register `cond` is recomputed from, for the instructions that write it (R30). -/
def flagSource : Instr → Option Reg
  | .addReg dr _ _ | .addImm dr _ _ | .andReg dr _ _ | .andImm dr _ _ | .not dr _ => some dr
  | .ld dr _ | .ldi dr _ | .ldr dr _ _ | .lea dr _ => some dr
  | .trapGetc | .trapIn => some .r0
  | .br _ _ | .jmp _ | .jsr _ | .jsrr _ | .st _ _ | .sti _ _ | .str _ _ _ | .rti | .res | .trapOut | .trapPuts
  | .trapPutsp | .trapHalt | .trap _ => none

/-- The instructions that change `pc` after the fetch (R26). -/
def transfersControl : Instr → Bool
  | .br _ _ | .jmp _ | .jsr _ | .jsrr _ => true
  | .addReg _ _ _ | .addImm _ _ _ | .andReg _ _ _ | .andImm _ _ _ | .not _ _ | .ld _ _ | .ldi _ _ | .ldr _ _ _
  | .lea _ _ | .st _ _ | .sti _ _ | .str _ _ _ | .rti | .res | .trapGetc | .trapOut | .trapPuts | .trapIn
  | .trapPutsp | .trapHalt | .trap _ => false

/-- The instructions that store a word (R53: writers). -/
def storesWord : Instr → Bool
  | .st _ _ | .sti _ _ | .str _ _ _ => true
  | .br _ _ | .jmp _ | .jsr _ | .jsrr _ | .addReg _ _ _ | .addImm _ _ _ | .andReg _ _ _ | .andImm _ _ _ | .not _ _
  | .ld _ _ | .ldi _ _ | .ldr _ _ _ | .lea _ _ | .rti | .res | .trapGetc | .trapOut | .trapPuts | .trapIn
  | .trapPutsp | .trapHalt | .trap _ => false

/-- The instructions that read memory after the fetch (R55). -/
def readsMemory : Instr → Bool
  | .ld _ _ | .ldi _ _ | .ldr _ _ _ | .sti _ _ | .trapPuts | .trapPutsp => true
  | .br _ _ | .jmp _ | .jsr _ | .jsrr _ | .addReg _ _ _ | .addImm _ _ _ | .andReg _ _ _ | .andImm _ _ _ | .not _ _
  | .lea _ _ | .st _ _ | .str _ _ _ | .rti | .res | .trapGetc | .trapOut | .trapIn | .trapHalt | .trap _ => false

/-- The instructions that write to the output (R37: writers). -/
def writesOutput : Instr → Bool
  | .trapOut | .trapPuts | .trapIn | .trapPutsp | .trapHalt => true
  | .br _ _ | .jmp _ | .jsr _ | .jsrr _ | .addReg _ _ _ | .addImm _ _ _ | .andReg _ _ _ | .andImm _ _ _ | .not _ _
  | .ld _ _ | .ldi _ _ | .ldr _ _ _ | .lea _ _ | .st _ _ | .sti _ _ | .str _ _ _ | .rti | .res | .trapGetc
  | .trap _ => false

/-- The instructions that wait for a byte of `In` (R183). -/
def waitsForInput : Instr → Bool
  | .trapGetc | .trapIn => true
  | .br _ _ | .jmp _ | .jsr _ | .jsrr _ | .addReg _ _ _ | .addImm _ _ _ | .andReg _ _ _ | .andImm _ _ _ | .not _ _
  | .ld _ _ | .ldi _ _ | .ldr _ _ _ | .lea _ _ | .st _ _ | .sti _ _ | .str _ _ _ | .rti | .res | .trapOut
  | .trapPuts | .trapPutsp | .trapHalt | .trap _ => false

end Sys2Proof.Machine
end

