-- ==== Sys2Proof/Certificates/Slice0/Obligations.lean ====
section
/-! DEFINITION. Sys2Proof/Certificates/Slice0/Obligations.lean: the statements for the provers. In each, `s` is any state,
reachable or not; for `exec` its `pc` is the incremented PC (R25; log entry 24). "Completes" means that `exec` answers a
next state. `p` is any choice of the open parameters (R7); those of a machine are in its state (`s.params`, log entry 26).
Where a statement rests on a default of the spec's open parameters, on a decision the spec marks as its own,
or on a choice of the model, its docstring says so and names the log entry. -/

open Sys2Proof Sys2Proof.Machine

/-! ## Encoding (30_encoding.md) -/

/-- For every choice of the open parameters that meets R7's constraints: decoding the word of a well-formed instruction
gives it back, with every operand at every value its field admits. Model's choice: the encoder's ignored bits (log entry
22). -/
def Obligations.DecodeOfEncodeIsInstruction : Prop :=
  ∀ (p : Params) (i : Instr), p.Valid → i.wf = true → decode p (encode p i) = i

/-- Every word decodes to a well-formed instruction (the rows of the table as R90 orders them; log entry 18). -/
def Obligations.EveryWordDecodesWellFormed : Prop :=
  ∀ (p : Params) (w : Word), (decode p w).wf = true

/-- The decoder's case of R87 with the fields of R86, whatever the values of `OPCODE_MAP` and `MODE_IMM`. -/
def Obligations.DecoderReadsFieldsByOpcode : Prop :=
  ∀ (p : Params) (w : Word),
    (p.opcodeAt (w.extractLsb' 12 4) = .add ∨ p.opcodeAt (w.extractLsb' 12 4) = .and →
      decode p w =
        if w.getLsbD 5 = p.modeImm then
          (if p.opcodeAt (w.extractLsb' 12 4) = .add then Instr.addImm else Instr.andImm)
            (Reg.ofBits (w.extractLsb' 9 3)) (Reg.ofBits (w.extractLsb' 6 3)) (w.extractLsb' 0 5)
        else
          (if p.opcodeAt (w.extractLsb' 12 4) = .add then Instr.addReg else Instr.andReg)
            (Reg.ofBits (w.extractLsb' 9 3)) (Reg.ofBits (w.extractLsb' 6 3)) (Reg.ofBits (w.extractLsb' 0 3))) ∧
    (p.opcodeAt (w.extractLsb' 12 4) = .not →
      decode p w = .not (Reg.ofBits (w.extractLsb' 9 3)) (Reg.ofBits (w.extractLsb' 6 3))) ∧
    (p.opcodeAt (w.extractLsb' 12 4) = .br → decode p w = .br (w.extractLsb' 9 3) (w.extractLsb' 0 9)) ∧
    (p.opcodeAt (w.extractLsb' 12 4) = .jmp → decode p w = .jmp (Reg.ofBits (w.extractLsb' 6 3))) ∧
    (p.opcodeAt (w.extractLsb' 12 4) = .jsr →
      decode p w = if w.getLsbD 11 then .jsr (w.extractLsb' 0 11) else .jsrr (Reg.ofBits (w.extractLsb' 6 3))) ∧
    (p.opcodeAt (w.extractLsb' 12 4) = .ld → decode p w = .ld (Reg.ofBits (w.extractLsb' 9 3)) (w.extractLsb' 0 9)) ∧
    (p.opcodeAt (w.extractLsb' 12 4) = .ldi → decode p w = .ldi (Reg.ofBits (w.extractLsb' 9 3)) (w.extractLsb' 0 9)) ∧
    (p.opcodeAt (w.extractLsb' 12 4) = .lea → decode p w = .lea (Reg.ofBits (w.extractLsb' 9 3)) (w.extractLsb' 0 9)) ∧
    (p.opcodeAt (w.extractLsb' 12 4) = .st → decode p w = .st (Reg.ofBits (w.extractLsb' 9 3)) (w.extractLsb' 0 9)) ∧
    (p.opcodeAt (w.extractLsb' 12 4) = .sti → decode p w = .sti (Reg.ofBits (w.extractLsb' 9 3)) (w.extractLsb' 0 9)) ∧
    (p.opcodeAt (w.extractLsb' 12 4) = .ldr →
      decode p w = .ldr (Reg.ofBits (w.extractLsb' 9 3)) (Reg.ofBits (w.extractLsb' 6 3)) (w.extractLsb' 0 6)) ∧
    (p.opcodeAt (w.extractLsb' 12 4) = .str →
      decode p w = .str (Reg.ofBits (w.extractLsb' 9 3)) (Reg.ofBits (w.extractLsb' 6 3)) (w.extractLsb' 0 6)) ∧
    (p.opcodeAt (w.extractLsb' 12 4) = .trap → decode p w = decodeTrap (w.extractLsb' 0 8)) ∧
    (p.opcodeAt (w.extractLsb' 12 4) = .rti → decode p w = .rti) ∧
    (p.opcodeAt (w.extractLsb' 12 4) = .res → decode p w = .res)

/-- Every row of the opcode table: a word that matches the row's mask and match decodes to the row's instruction with
the operands of the row's fields. Model's choices: the default opcode map and mode bit (log entries 1, 2). -/
def Obligations.OpcodeTableRowsDecode : Prop :=
  (∀ w : Word, w &&& 0xF000 = 0x0000 → decode .default w = .br (w.extractLsb' 9 3) (w.extractLsb' 0 9)) ∧
  (∀ w : Word, w &&& 0xF020 = 0x1000 → decode .default w =
    .addReg (Reg.ofBits (w.extractLsb' 9 3)) (Reg.ofBits (w.extractLsb' 6 3)) (Reg.ofBits (w.extractLsb' 0 3))) ∧
  (∀ w : Word, w &&& 0xF020 = 0x1020 → decode .default w =
    .addImm (Reg.ofBits (w.extractLsb' 9 3)) (Reg.ofBits (w.extractLsb' 6 3)) (w.extractLsb' 0 5)) ∧
  (∀ w : Word, w &&& 0xF000 = 0x2000 → decode .default w = .ld (Reg.ofBits (w.extractLsb' 9 3)) (w.extractLsb' 0 9)) ∧
  (∀ w : Word, w &&& 0xF000 = 0x3000 → decode .default w = .st (Reg.ofBits (w.extractLsb' 9 3)) (w.extractLsb' 0 9)) ∧
  (∀ w : Word, w &&& 0xF800 = 0x4800 → decode .default w = .jsr (w.extractLsb' 0 11)) ∧
  (∀ w : Word, w &&& 0xF800 = 0x4000 → decode .default w = .jsrr (Reg.ofBits (w.extractLsb' 6 3))) ∧
  (∀ w : Word, w &&& 0xF020 = 0x5000 → decode .default w =
    .andReg (Reg.ofBits (w.extractLsb' 9 3)) (Reg.ofBits (w.extractLsb' 6 3)) (Reg.ofBits (w.extractLsb' 0 3))) ∧
  (∀ w : Word, w &&& 0xF020 = 0x5020 → decode .default w =
    .andImm (Reg.ofBits (w.extractLsb' 9 3)) (Reg.ofBits (w.extractLsb' 6 3)) (w.extractLsb' 0 5)) ∧
  (∀ w : Word, w &&& 0xF000 = 0x6000 → decode .default w =
    .ldr (Reg.ofBits (w.extractLsb' 9 3)) (Reg.ofBits (w.extractLsb' 6 3)) (w.extractLsb' 0 6)) ∧
  (∀ w : Word, w &&& 0xF000 = 0x7000 → decode .default w =
    .str (Reg.ofBits (w.extractLsb' 9 3)) (Reg.ofBits (w.extractLsb' 6 3)) (w.extractLsb' 0 6)) ∧
  (∀ w : Word, w &&& 0xF000 = 0x8000 → decode .default w = .rti) ∧
  (∀ w : Word, w &&& 0xF000 = 0x9000 → decode .default w =
    .not (Reg.ofBits (w.extractLsb' 9 3)) (Reg.ofBits (w.extractLsb' 6 3))) ∧
  (∀ w : Word, w &&& 0xF000 = 0xA000 → decode .default w = .ldi (Reg.ofBits (w.extractLsb' 9 3)) (w.extractLsb' 0 9)) ∧
  (∀ w : Word, w &&& 0xF000 = 0xB000 → decode .default w = .sti (Reg.ofBits (w.extractLsb' 9 3)) (w.extractLsb' 0 9)) ∧
  (∀ w : Word, w &&& 0xF000 = 0xC000 → decode .default w = .jmp (Reg.ofBits (w.extractLsb' 6 3))) ∧
  (∀ w : Word, w &&& 0xF000 = 0xD000 → decode .default w = .res) ∧
  (∀ w : Word, w &&& 0xF000 = 0xE000 → decode .default w = .lea (Reg.ofBits (w.extractLsb' 9 3)) (w.extractLsb' 0 9)) ∧
  (∀ w : Word, w &&& 0xF0FF = 0xF020 → decode .default w = .trapGetc) ∧
  (∀ w : Word, w &&& 0xF0FF = 0xF021 → decode .default w = .trapOut) ∧
  (∀ w : Word, w &&& 0xF0FF = 0xF022 → decode .default w = .trapPuts) ∧
  (∀ w : Word, w &&& 0xF0FF = 0xF023 → decode .default w = .trapIn) ∧
  (∀ w : Word, w &&& 0xF0FF = 0xF024 → decode .default w = .trapPutsp) ∧
  (∀ w : Word, w &&& 0xF0FF = 0xF025 → decode .default w = .trapHalt) ∧
  (∀ w : Word, w &&& 0xF000 = 0xF000 → Config.serviceVectors.contains (w.extractLsb' 0 8) = false →
    decode .default w = .trap (w.extractLsb' 0 8))

/-- Bits that no field of the format covers change nothing: flipping any of them gives the same instruction (R88, the
spec's decision D8; log entry 7). -/
def Obligations.UncoveredBitsAreIgnored : Prop :=
  (∀ (p : Params) (w x : Word), opcodeOf p w = .not → decode p (w ^^^ (x &&& 0x003F)) = decode p w) ∧
  (∀ (p : Params) (w x : Word), opcodeOf p w = .jmp → decode p (w ^^^ (x &&& 0x0E3F)) = decode p w) ∧
  (∀ (p : Params) (w x : Word), opcodeOf p w = .jsr → w.getLsbD 11 = false →
    decode p (w ^^^ (x &&& 0x063F)) = decode p w) ∧
  (∀ (p : Params) (w x : Word), opcodeOf p w = .add ∨ opcodeOf p w = .and → w.getLsbD 5 ≠ p.modeImm →
    decode p (w ^^^ (x &&& 0x0018)) = decode p w) ∧
  (∀ (p : Params) (w x : Word), opcodeOf p w = .trap → decode p (w ^^^ (x &&& 0x0F00)) = decode p w) ∧
  (∀ (p : Params) (w x : Word), opcodeOf p w = .rti ∨ opcodeOf p w = .res →
    decode p (w ^^^ (x &&& 0x0FFF)) = decode p w)

/-- The decoder's vectors V5 to V11 of 95_test_vectors.md (default parameters: log entries 1, 2). -/
def Obligations.SampleWordsDecodeAsWritten : Prop :=
  decode .default 0x1042 = .addReg .r0 .r1 .r2 ∧ decode .default 0x105A = .addReg .r0 .r1 .r2 ∧
  decode .default 0x9200 = .not .r1 .r0 ∧
  decode .default 0xCFC0 = .jmp .r7 ∧ decode .default 0xC1FF = .jmp .r7 ∧ decode .default 0xFF25 = .trapHalt ∧
  decode .default 0x0000 = .br 0 0 ∧
  decode .default 0x4000 = .jsrr .r0 ∧ decode .default 0x4800 = .jsr 0

/-! ## Operands (R82, R54) -/

/-- R82: when the top bit of an N-bit field is 1 the bits from N up are ones, else zeros, the bits below N are the
field's; and the 16-bit value is the field's signed value. -/
def Obligations.SignExtensionFillsHigherBits : Prop :=
  ∀ (n : Nat) (v : BitVec n), 1 ≤ n → n ≤ 16 →
    (∀ i, i < n → (sext v).getLsbD i = v.getLsbD i) ∧
    (∀ i, n ≤ i → i < 16 → (sext v).getLsbD i = v.getLsbD (n - 1)) ∧
    (sext v).toInt = v.toInt

/-- R54: every address the machine forms is the exact sum taken modulo 65536: the PC-relative and the base + offset
address, `pc + 1`, and the running address of a string in PUTS and PUTSP. -/
def Obligations.AddressesWrapModulo65536 : Prop :=
  (∀ (pc : Word) (off : BitVec 9), Wraps (pcRel pc off) (pc.toNat + off.toInt)) ∧
  (∀ (pc : Word) (off : BitVec 11), Wraps (pcRel pc off) (pc.toNat + off.toInt)) ∧
  (∀ (base : Word) (off : BitVec 6), Wraps (baseOff base off) (base.toNat + off.toInt)) ∧
  (∀ s : State, Wraps s.fetch.2.pc (s.pc.toNat + 1)) ∧
  (∀ (bytes : Word → List Byte) (a : Word) (s : State), (s.memRead a).1 ≠ 0x0000 → ∃ b, Wraps b (a.toNat + 1) ∧
    scanString bytes a s = scanString bytes b ((s.memRead a).2.emit (bytes (s.memRead a).1)))

/-! ## State (10_state.md) -/

/-- R23, R31 and the values of R39 that the spec gives: registers 0, `pc` 0x3000, `cond` ZERO (what `setcc` gives for
any of the registers), running, every word 0, nothing written; whatever the parameters of the machine. -/
def Obligations.ResetLeavesTheSpecsValues : Prop :=
  ∀ p : Params,
    (∀ r, (State.resetWith p).reg r = 0x0000) ∧ (State.resetWith p).pc = 0x3000 ∧ (State.resetWith p).cond = .zero ∧
    (∀ r, ((State.resetWith p).setcc r).cond = (State.resetWith p).cond) ∧ (State.resetWith p).running = true ∧
    (∀ a, (State.resetWith p).mem.readWord a = 0x0000) ∧ (State.resetWith p).output = []

/-- R20, R21: a register reads what was last written to it, no other register and nothing else of the state changes,
`cond` in particular; so no register is hardwired and none aliases another. -/
def Obligations.RegistersArePlainStorage : Prop :=
  ∀ (s : State) (r : Reg) (v : Word),
    (s.setReg r v).reg r = v ∧ SameRegsBut r s (s.setReg r v) ∧ (s.setReg r v).cond = s.cond ∧
    SameControl s (s.setReg r v) ∧ SameMem s (s.setReg r v) ∧ SameStreams s (s.setReg r v)

/-- R29: `setcc(i)` sets `cond` from the value then in the register and changes nothing else; an instruction's result is
written first and `setcc` applied after it. -/
def Obligations.SetccFollowsTheValue : Prop :=
  ∀ (s : State) (r : Reg),
    (s.reg r = 0x0000 → (s.setcc r).cond = .zero) ∧
    (s.reg r ≠ 0x0000 → (s.reg r).getLsbD 15 = true → (s.setcc r).cond = .negative) ∧
    (s.reg r ≠ 0x0000 → (s.reg r).getLsbD 15 = false → (s.setcc r).cond = .positive) ∧
    SameRegs s (s.setcc r) ∧ SameControl s (s.setcc r) ∧ SameMem s (s.setcc r) ∧ SameStreams s (s.setcc r) ∧
    (∀ v, s.writeResult r v = (s.setReg r v).setcc r)

/-- The constraints R7 puts on every choice of the open parameters, for the defaults of R7 and R84 (log entries 1 to 4), and
what they say of any choice: the three flag values have three different patterns, each with one bit set. -/
def Obligations.ParametersMeetConstraints : Prop :=
  Params.default.Valid ∧
  ∀ p : Params, p.Valid →
    (∀ c, condBits p c = 0b001 ∨ condBits p c = 0b010 ∨ condBits p c = 0b100) ∧
    (∀ c d, condBits p c = condBits p d → c = d) ∧
    (∀ c, condHolds p 0b111 c = true ∧ condHolds p 0b000 c = false)

/-- Two memories in canonical form that read alike in every byte are the same data (the model's memory; log entry 16). -/
def Obligations.CanonicalMemoriesAreEqualData : Prop :=
  ∀ m n : Memory, m.wf = true → n.wf = true → (∀ k, m.readByte k = n.readByte k) → m = n

/-! ## The memory bus (20_memory.md) -/

/-- R52: a read of any address but KBSR_ADDR, KBDR_ADDR included, returns the word and has no side effect. (R7 requires that
the two addresses differ.) -/
def Obligations.OrdinaryReadHasNoSideEffect : Prop :=
  (∀ (s : State) (a : Word), a ≠ s.params.kbsrAddr → s.memRead a = (s.mem.readWord a, s)) ∧
  (∀ s : State, s.params.Valid → s.memRead s.params.kbdrAddr = (s.mem.readWord s.params.kbdrAddr, s))

/-- R50, R51 with the spec's decisions D6 and D7 (log entry 6): a read of KBSR_ADDR polls first. With a byte pending the
status word becomes and reads 0x8000, the byte goes zero-extended to KBDR and leaves `In`; else the status word becomes
and reads 0x0000 and nothing else changes. The two addresses differ, as R7 requires. -/
def Obligations.StatusReadPollsKeyboard : Prop :=
  (∀ s : State, s.input = [] →
    (s.memRead s.params.kbsrAddr).1 = 0x0000 ∧
      WritesOnlyWord s.params.kbsrAddr 0x0000 s (s.memRead s.params.kbsrAddr).2) ∧
  (∀ (s : State) (b : Byte) (rest : List Byte), s.params.Valid → s.input = b :: rest →
    (s.memRead s.params.kbsrAddr).1 = 0x8000 ∧ (s.memRead s.params.kbsrAddr).2.mem.readWord s.params.kbsrAddr = 0x8000 ∧
    ((s.memRead s.params.kbsrAddr).2.mem.readWord s.params.kbdrAddr).toNat = b.toNat ∧
      SameMemButDevice s (s.memRead s.params.kbsrAddr).2 ∧
    SameRegs s (s.memRead s.params.kbsrAddr).2 ∧ (s.memRead s.params.kbsrAddr).2.cond = s.cond ∧
    SameControl s (s.memRead s.params.kbsrAddr).2 ∧
    (s.memRead s.params.kbsrAddr).2.input = rest ∧ (s.memRead s.params.kbsrAddr).2.output = s.output ∧
    (s.memRead s.params.kbsrAddr).2.arrivals = s.arrivals)

/-- R53 with the spec's decision D19 (log entry 20): a write is a plain store at every address, the device words
included; it polls nothing and takes nothing from `In`. -/
def Obligations.WriteIsPlainStore : Prop :=
  ∀ (s : State) (a v : Word), WritesOnlyWord a v s (s.memWrite a v)

/-- R65: a store is seen by the next fetch, for every address a fetch reads plainly. -/
def Obligations.FetchSeesTheStore : Prop :=
  ∀ (s : State) (a v : Word), a ≠ s.params.kbsrAddr → (((s.memWrite a v).setPc a).fetch).1 = v

/-! ## ADD, AND, NOT (40_alu.md) -/

/-- R111: ADD, register form, completes: DR is the sum modulo 65536, `cond` is set from it, nothing else changes. -/
def Obligations.AddRegisterWritesSum : Prop :=
  (∀ (p : Params) (w : Word), opcodeOf p w = .add → w.getLsbD 5 ≠ p.modeImm → decode p w =
    .addReg (Reg.ofBits (w.extractLsb' 9 3)) (Reg.ofBits (w.extractLsb' 6 3)) (Reg.ofBits (w.extractLsb' 0 3))) ∧
  ∀ (dr sr1 sr2 : Reg) (s : State), ∃ t, exec (.addReg dr sr1 sr2) s = .next t ∧
    (t.reg dr).toNat = ((s.reg sr1).toNat + (s.reg sr2).toNat) % 65536 ∧ WritesOnlyReg dr s t

/-- R112: ADD, immediate form, completes: DR is SR1 plus the immediate, -16 to 15, modulo 65536. -/
def Obligations.AddImmediateWritesSum : Prop :=
  (∀ (p : Params) (w : Word), opcodeOf p w = .add → w.getLsbD 5 = p.modeImm → decode p w =
    .addImm (Reg.ofBits (w.extractLsb' 9 3)) (Reg.ofBits (w.extractLsb' 6 3)) (w.extractLsb' 0 5)) ∧
  (∀ imm : BitVec 5, -16 ≤ imm.toInt ∧ imm.toInt ≤ 15) ∧
  ∀ (dr sr1 : Reg) (imm : BitVec 5) (s : State), ∃ t, exec (.addImm dr sr1 imm) s = .next t ∧
    Wraps (t.reg dr) ((s.reg sr1).toNat + imm.toInt) ∧ WritesOnlyReg dr s t

/-- R113: AND, register form, completes: bit k of DR is 1 exactly when bit k of both sources is. -/
def Obligations.AndRegisterWritesAnd : Prop :=
  (∀ (p : Params) (w : Word), opcodeOf p w = .and → w.getLsbD 5 ≠ p.modeImm → decode p w =
    .andReg (Reg.ofBits (w.extractLsb' 9 3)) (Reg.ofBits (w.extractLsb' 6 3)) (Reg.ofBits (w.extractLsb' 0 3))) ∧
  ∀ (dr sr1 sr2 : Reg) (s : State), ∃ t, exec (.andReg dr sr1 sr2) s = .next t ∧
    (∀ k, k < 16 → (t.reg dr).getLsbD k = ((s.reg sr1).getLsbD k && (s.reg sr2).getLsbD k)) ∧ WritesOnlyReg dr s t

/-- R114: AND, immediate form, completes: the mask is the sign-extended immediate, so the bits from 4 up are kept when
its top bit is 1 and cleared when it is 0. -/
def Obligations.AndImmediateWritesAnd : Prop :=
  (∀ (p : Params) (w : Word), opcodeOf p w = .and → w.getLsbD 5 = p.modeImm → decode p w =
    .andImm (Reg.ofBits (w.extractLsb' 9 3)) (Reg.ofBits (w.extractLsb' 6 3)) (w.extractLsb' 0 5)) ∧
  ∀ (dr sr1 : Reg) (imm : BitVec 5) (s : State), ∃ t, exec (.andImm dr sr1 imm) s = .next t ∧
    (∀ k, k < 16 → (t.reg dr).getLsbD k = ((s.reg sr1).getLsbD k && imm.getLsbD (min k 4))) ∧ WritesOnlyReg dr s t

/-- R115: NOT completes: DR is 0xFFFF minus SR, the 16-bit complement. -/
def Obligations.NotWritesComplement : Prop :=
  (∀ (p : Params) (w : Word), opcodeOf p w = .not →
    decode p w = .not (Reg.ofBits (w.extractLsb' 9 3)) (Reg.ofBits (w.extractLsb' 6 3))) ∧
  ∀ (dr sr : Reg) (s : State), ∃ t, exec (.not dr sr) s = .next t ∧
    (t.reg dr).toNat = 0xFFFF - (s.reg sr).toNat ∧ WritesOnlyReg dr s t

/-! ## BR, JMP, JSR (41_control.md) -/

/-- R130: BR completes: when the mask has the bit of the current flag, `pc` is the incremented PC plus the offset modulo
65536, else `pc` is not changed; nothing else changes; and with all three mask bits set it always branches, for flag
patterns that meet R7's constraints. -/
def Obligations.BrBranchesOnMatchingFlag : Prop :=
  (∀ (p : Params) (w : Word), opcodeOf p w = .br → decode p w = .br (w.extractLsb' 9 3) (w.extractLsb' 0 9)) ∧
  (∀ (mask : BitVec 3) (off : BitVec 9) (s : State), ∃ t, exec (.br mask off) s = .next t ∧
    (mask &&& condBits s.params s.cond ≠ 0 → Wraps t.pc (s.pc.toNat + off.toInt)) ∧
    (mask &&& condBits s.params s.cond = 0 → t.pc = s.pc) ∧ WritesOnlyPc t.pc s t) ∧
  (∀ (off : BitVec 9) (s : State), s.params.Valid → ∃ t, exec (.br 0b111 off) s = .next t ∧
    Wraps t.pc (s.pc.toNat + off.toInt))

/-- R132: JMP completes: `pc` is the value of the base register, and nothing else changes (no link). -/
def Obligations.JmpGoesToRegister : Prop :=
  (∀ (p : Params) (w : Word), opcodeOf p w = .jmp → decode p w = .jmp (Reg.ofBits (w.extractLsb' 6 3))) ∧
  ∀ (base : Reg) (s : State), ∃ t, exec (.jmp base) s = .next t ∧ WritesOnlyPc (s.reg base) s t

/-- R134: JSR completes: `R7` receives the incremented PC, `pc` is the incremented PC plus the offset modulo 65536, the
flags and everything else stay. -/
def Obligations.JsrLinksAndBranches : Prop :=
  (∀ (p : Params) (w : Word), opcodeOf p w = .jsr → w.getLsbD 11 = true → decode p w = .jsr (w.extractLsb' 0 11)) ∧
  ∀ (off : BitVec 11) (s : State), ∃ t, exec (.jsr off) s = .next t ∧
    Wraps t.pc (s.pc.toNat + off.toInt) ∧ LinksAndJumps t.pc s t

/-- R136: JSRR completes: `R7` receives the incremented PC and `pc` the value of the base register; with base `R7` it
falls through, because the link comes first (the spec's decision D10; log entry 9). -/
def Obligations.JsrrLinksThenReadsBase : Prop :=
  (∀ (p : Params) (w : Word), opcodeOf p w = .jsr → w.getLsbD 11 = false →
    decode p w = .jsrr (Reg.ofBits (w.extractLsb' 6 3))) ∧
  (∀ (base : Reg) (s : State), base ≠ .r7 → ∃ t, exec (.jsrr base) s = .next t ∧ LinksAndJumps (s.reg base) s t) ∧
  (∀ s : State, ∃ t, exec (.jsrr .r7) s = .next t ∧ LinksAndJumps s.pc s t)

/-! ## Loads, LEA, stores (42_load_store.md) -/

/-- R151: LD completes: DR is the word read through the bus at the PC-relative address, `cond` is set from it, and
nothing else changes from the state the bus read leaves; away from KBSR_ADDR that is the state before. -/
def Obligations.LdLoadsPcRelativeWord : Prop :=
  (∀ (p : Params) (w : Word), opcodeOf p w = .ld →
    decode p w = .ld (Reg.ofBits (w.extractLsb' 9 3)) (w.extractLsb' 0 9)) ∧
  ∀ (dr : Reg) (off : BitVec 9) (s : State), ∃ t, exec (.ld dr off) s = .next t ∧
    t.reg dr = (s.memRead (pcRel s.pc off)).1 ∧ WritesOnlyReg dr (s.memRead (pcRel s.pc off)).2 t ∧
    (pcRel s.pc off ≠ s.params.kbsrAddr → t.reg dr = s.mem.readWord (pcRel s.pc off) ∧ WritesOnlyReg dr s t)

/-- R152: LDI completes: the pointer is read through the bus at the PC-relative address, then DR through the bus at the
pointer, in that order. -/
def Obligations.LdiLoadsThroughPointer : Prop :=
  (∀ (p : Params) (w : Word), opcodeOf p w = .ldi →
    decode p w = .ldi (Reg.ofBits (w.extractLsb' 9 3)) (w.extractLsb' 0 9)) ∧
  ∀ (dr : Reg) (off : BitVec 9) (s : State), ∃ t, exec (.ldi dr off) s = .next t ∧
    t.reg dr = ((s.memRead (pcRel s.pc off)).2.memRead (s.memRead (pcRel s.pc off)).1).1 ∧
    WritesOnlyReg dr ((s.memRead (pcRel s.pc off)).2.memRead (s.memRead (pcRel s.pc off)).1).2 t ∧
    (pcRel s.pc off ≠ s.params.kbsrAddr → s.mem.readWord (pcRel s.pc off) ≠ s.params.kbsrAddr →
      t.reg dr = s.mem.readWord (s.mem.readWord (pcRel s.pc off)) ∧ WritesOnlyReg dr s t)

/-- R153: LDR completes: DR is the word read through the bus at base + offset, formed from the old base; the base is
not modified unless it is DR. -/
def Obligations.LdrLoadsBaseOffsetWord : Prop :=
  (∀ (p : Params) (w : Word), opcodeOf p w = .ldr →
    decode p w = .ldr (Reg.ofBits (w.extractLsb' 9 3)) (Reg.ofBits (w.extractLsb' 6 3)) (w.extractLsb' 0 6)) ∧
  ∀ (dr base : Reg) (off : BitVec 6) (s : State), ∃ t, exec (.ldr dr base off) s = .next t ∧
    t.reg dr = (s.memRead (baseOff (s.reg base) off)).1 ∧
    WritesOnlyReg dr (s.memRead (baseOff (s.reg base) off)).2 t ∧
    (baseOff (s.reg base) off ≠ s.params.kbsrAddr →
      t.reg dr = s.mem.readWord (baseOff (s.reg base) off) ∧ WritesOnlyReg dr s t)

/-- R154: LEA completes: DR is the incremented PC plus the offset modulo 65536, `cond` is set from it, and nothing is
read: every byte of memory and the host's streams stay. -/
def Obligations.LeaWritesAddress : Prop :=
  (∀ (p : Params) (w : Word), opcodeOf p w = .lea →
    decode p w = .lea (Reg.ofBits (w.extractLsb' 9 3)) (w.extractLsb' 0 9)) ∧
  ∀ (dr : Reg) (off : BitVec 9) (s : State), ∃ t, exec (.lea dr off) s = .next t ∧
    Wraps (t.reg dr) (s.pc.toNat + off.toInt) ∧ WritesOnlyReg dr s t

/-- R155: ST completes: SR is stored at the PC-relative address, and nothing else changes. -/
def Obligations.StStoresPcRelativeWord : Prop :=
  (∀ (p : Params) (w : Word), opcodeOf p w = .st →
    decode p w = .st (Reg.ofBits (w.extractLsb' 9 3)) (w.extractLsb' 0 9)) ∧
  ∀ (sr : Reg) (off : BitVec 9) (s : State), ∃ t, exec (.st sr off) s = .next t ∧
    WritesOnlyWord (pcRel s.pc off) (s.reg sr) s t

/-- R156: STI completes: the pointer is read through the bus at the PC-relative address, SR is stored at the pointer,
and nothing else changes from the state the pointer read leaves; away from KBSR_ADDR that is the state before. -/
def Obligations.StiStoresThroughPointer : Prop :=
  (∀ (p : Params) (w : Word), opcodeOf p w = .sti →
    decode p w = .sti (Reg.ofBits (w.extractLsb' 9 3)) (w.extractLsb' 0 9)) ∧
  ∀ (sr : Reg) (off : BitVec 9) (s : State), ∃ t, exec (.sti sr off) s = .next t ∧
    WritesOnlyWord (s.memRead (pcRel s.pc off)).1 (s.reg sr) (s.memRead (pcRel s.pc off)).2 t ∧
    (pcRel s.pc off ≠ s.params.kbsrAddr → WritesOnlyWord (s.mem.readWord (pcRel s.pc off)) (s.reg sr) s t)

/-- R157: STR completes: SR is stored at base + offset, and nothing else changes. -/
def Obligations.StrStoresBaseOffsetWord : Prop :=
  (∀ (p : Params) (w : Word), opcodeOf p w = .str →
    decode p w = .str (Reg.ofBits (w.extractLsb' 9 3)) (Reg.ofBits (w.extractLsb' 6 3)) (w.extractLsb' 0 6)) ∧
  ∀ (sr base : Reg) (off : BitVec 6) (s : State), ∃ t, exec (.str sr base off) s = .next t ∧
    WritesOnlyWord (baseOff (s.reg base) off) (s.reg sr) s t

/-! ## TRAP and its services (43_trap.md) -/

/-- R182: with a byte pending GETC completes: R7 is the link, R0 the zero-extended byte, `cond` is set from R0 (never
NEGATIVE), the byte leaves `In`; nothing is written, memory stays. The spec marks as its own that memory stays and that
the service waits for the byte (D12; log entry 11). -/
def Obligations.GetcReadsOneByte : Prop :=
  ∀ (s : State) (b : Byte) (rest : List Byte), s.input = b :: rest → ∃ t, exec .trapGetc s = .next t ∧
    (t.reg .r0).toNat = b.toNat ∧ t.reg .r7 = s.pc ∧ (∀ r, r ≠ .r0 → r ≠ .r7 → t.reg r = s.reg r) ∧
    t.cond = condOf (t.reg .r0) ∧ t.cond ≠ .negative ∧ SameControl s t ∧ SameMem s t ∧
    t.input = rest ∧ t.output = s.output ∧ t.arrivals = s.arrivals

/-- R192 with the spec's decisions D12 and D14 (log entries 11, 12): with a byte pending IN completes as GETC does, and the
output receives the prompt, which is a parameter, and then the byte. -/
def Obligations.InPromptsAndEchoesOneByte : Prop :=
  ∀ (s : State) (b : Byte) (rest : List Byte), s.input = b :: rest → ∃ t, exec .trapIn s = .next t ∧
    (t.reg .r0).toNat = b.toNat ∧ t.reg .r7 = s.pc ∧ (∀ r, r ≠ .r0 → r ≠ .r7 → t.reg r = s.reg r) ∧
    t.cond = condOf (t.reg .r0) ∧ t.cond ≠ .negative ∧ SameControl s t ∧ SameMem s t ∧
    t.input = rest ∧ t.output = s.output ++ s.params.inPrompt ++ [b] ∧ t.arrivals = s.arrivals

/-- R183, the spec's decision D12, as the model shows it (log entry 11): with `In` empty GETC and IN put `pc` back and do
nothing else, and a step that runs one of them leaves every piece of core state as it was, so that only the host's move
is seen. -/
def Obligations.InputServicesHoldWithoutByte : Prop :=
  (∀ s : State, s.input = [] →
    exec .trapGetc s = .next { s with pc := s.pc - 1 } ∧ exec .trapIn s = .next { s with pc := s.pc - 1 }) ∧
  (∀ s : State, s.running = true → s.hostTurn.input = [] → waitsForInput (decode s.params s.hostTurn.fetch.1) = true →
    step s = .next s.hostTurn)

/-- R186: OUT completes: R7 is the link, the low byte of R0 is written, and nothing else changes. -/
def Obligations.OutWritesLowByte : Prop :=
  (∀ (p : Params) (w : Word), opcodeOf p w = .trap → w.extractLsb' 0 8 = 0x21#8 → decode p w = .trapOut) ∧
  ∀ s : State, ∃ t, exec .trapOut s = .next t ∧ LinksAndEmits [(s.reg .r0).extractLsb' 0 8] s t

/-- R188, R195 with the spec's decisions D11 and D15 (log entry 10), and R189 (log entry 23): PUTS and PUTSP run the
loop of their rule from R0 after the link. The loop obeys its own equation on every state, so nothing but a zero word
ends it, and more than (length of `In` + 1) * 65536 reads change nothing. -/
def Obligations.StringServicesRunTheirLoop : Prop :=
  (∀ s : State, exec .trapPuts s = .next (scanString (fun w => [w.extractLsb' 0 8]) (s.reg .r0) s.link)) ∧
  (∀ s : State, exec .trapPutsp s = .next (scanString
    (fun w => if w.extractLsb' 8 8 = 0#8 then [w.extractLsb' 0 8] else [w.extractLsb' 0 8, w.extractLsb' 8 8])
    (s.reg .r0) s.link)) ∧
  (∀ (bytes : Word → List Byte) (a : Word) (s : State), scanString bytes a s =
    if (s.memRead a).1 = 0x0000 then (s.memRead a).2
    else scanString bytes (a + 1) ((s.memRead a).2.emit (bytes (s.memRead a).1))) ∧
  (∀ (bytes : Word → List Byte) (a : Word) (s : State) (n : Nat), (s.input.length + 1) * 65536 ≤ n →
    scanLoop bytes n a s = scanString bytes a s)

/-- R188 on a string that does not cross KBSR_ADDR: PUTS writes the low byte of each word up to the first zero word, not
included, and changes only R7 and the output. -/
def Obligations.PutsWritesTheString : Prop :=
  ∀ (s : State) (ws : List Word), StringAt s (s.reg .r0) ws → ∃ t, exec .trapPuts s = .next t ∧
    LinksAndEmits (ws.map fun w => w.extractLsb' 0 8) s t

/-- R195 on a string that does not cross KBSR_ADDR: PUTSP writes for each word the low byte and, if it is not zero, the
high byte, and changes only R7 and the output. -/
def Obligations.PutspWritesThePackedString : Prop :=
  ∀ (s : State) (ws : List Word), StringAt s (s.reg .r0) ws → ∃ t, exec .trapPutsp s = .next t ∧
    LinksAndEmits (ws.flatMap fun w =>
      if w.extractLsb' 8 8 = 0#8 then [w.extractLsb' 0 8] else [w.extractLsb' 0 8, w.extractLsb' 8 8]) s t

/-- R198: HALT completes: R7 is the link, the notice (the parameter HALT_NOTICE, by name) is written, `running` becomes
0, nothing else changes, and the machine takes no further step. -/
def Obligations.HaltWritesNoticeAndStops : Prop :=
  (∀ (p : Params) (w : Word), opcodeOf p w = .trap → w.extractLsb' 0 8 = 0x25#8 → decode p w = .trapHalt) ∧
  ∀ s : State, ∃ t, exec .trapHalt s = .next t ∧ t.running = false ∧ t.pc = s.pc ∧ t.reg .r7 = s.pc ∧
    t.output = s.output ++ s.params.haltNotice ∧ SameRegsBut .r7 s t ∧ t.cond = s.cond ∧ SameMem s t ∧
    t.input = s.input ∧
    t.arrivals = s.arrivals ∧ t.params = s.params ∧ ∀ u, step t ≠ .next u

/-- R199 and R181: TRAP with a vector that selects no service completes and links R7 and does nothing else (the spec's
decision D9; log entry 8); with a vector that selects one it is that service (the constructor trap with such a vector is
never decoded; log entry 18). -/
def Obligations.TrapVectorSelectsService : Prop :=
  (∀ (v : BitVec 8) (s : State), Config.serviceVectors.contains v = false →
    ∃ t, exec (.trap v) s = .next t ∧ LinksAndEmits [] s t) ∧
  (∀ s : State, exec (.trap 0x20) s = exec .trapGetc s ∧ exec (.trap 0x21) s = exec .trapOut s ∧
    exec (.trap 0x22) s = exec .trapPuts s ∧ exec (.trap 0x23) s = exec .trapIn s ∧
    exec (.trap 0x24) s = exec .trapPutsp s ∧ exec (.trap 0x25) s = exec .trapHalt s)

/-- R180, R226: for every vector, TRAP completes when a byte is pending, or no byte is needed (decision D12, log entry 11);
R7 receives the incremented PC, `pc` stays, only GETC and IN write R0 and the flags, only HALT clears `running`, only the
writers of R37 write to the output; GETC and IN take one byte of `In`, the string services only what their reads poll, the
others none; only the string services can change memory, and of it only the two device words (D11, log entry 10). For the
vectors that select no service this is the spec's decision D9 (log entry 8). -/
def Obligations.TrapLinksForEveryVector : Prop :=
  ∀ (v : BitVec 8) (s : State), (waitsForInput (decodeTrap v) = true → s.input ≠ []) →
    ∃ t, exec (decodeTrap v) s = .next t ∧ t.reg .r7 = s.pc ∧ t.pc = s.pc ∧
      (∀ r, r ≠ .r7 → r ≠ .r0 → t.reg r = s.reg r) ∧
      (waitsForInput (decodeTrap v) = false → t.reg .r0 = s.reg .r0 ∧ t.cond = s.cond) ∧
      (v ≠ 0x25 → t.running = s.running) ∧
      (∃ bs, t.output = s.output ++ bs) ∧ (writesOutput (decodeTrap v) = false → t.output = s.output) ∧
      (∃ taken, s.input = taken ++ t.input) ∧ (waitsForInput (decodeTrap v) = true → ∃ b, s.input = b :: t.input) ∧
      (waitsForInput (decodeTrap v) = false → readsMemory (decodeTrap v) = false → t.input = s.input) ∧
      SameMemButDevice s t ∧ (readsMemory (decodeTrap v) = false → SameMem s t) ∧ t.arrivals = s.arrivals ∧ t.params = s.params

/-! ## RTI and RES (44_reserved.md) -/

/-- R210, R211: RTI and the reserved opcode complete and change nothing after the fetch, whatever their low 12 bits. -/
def Obligations.UndefinedOpcodesAreNoOps : Prop :=
  (∀ (p : Params) (w : Word), opcodeOf p w = .rti → decode p w = .rti) ∧
    (∀ (p : Params) (w : Word), opcodeOf p w = .res → decode p w = .res) ∧
  (∀ s : State, exec .rti s = .next s) ∧ (∀ s : State, exec .res s = .next s)

/-! ## The step (60_exceptions.md, 70_reset_and_hazards.md) -/

/-- R228, R26: a step of a running machine is the host's move (log entry 13), the fetch, and `exec` of the decoded
instruction. The fetch is a bus read at every `pc`, KBSR_ADDR included, where it polls, and the increment of `pc` modulo
65536; away from KBSR_ADDR it reads the word at `pc` and does nothing else. -/
def Obligations.StepRunsDecodedInstruction : Prop :=
  (∀ (s : State) (i : Instr), s.running = true → decode s.params s.hostTurn.fetch.1 = i →
    step s = exec i s.hostTurn.fetch.2) ∧
  (∀ s : State, s.fetch = ((s.memRead s.pc).1, { (s.memRead s.pc).2 with pc := s.pc + 1 })) ∧
  (∀ s : State, s.pc = s.params.kbsrAddr → s.fetch.1 = (s.memRead s.params.kbsrAddr).1 ∧
    s.fetch.2.mem = s.kbdPoll.mem ∧ s.fetch.2.input = s.input.tail) ∧
  (∀ s : State, s.pc ≠ s.params.kbsrAddr → s.fetch = (s.mem.readWord s.pc, { s with pc := s.pc + 1 })) ∧
  (∀ s : State, s.hostTurn = match s.arrivals with
    | [] => s
    | bs :: rest => { s with input := s.input ++ bs, arrivals := rest })

/-- R228, R220: from every state in which the machine runs, reachable or not and whatever the memory holds, a step yields
a next state: no instruction faults and none is refused. A held step (R183) is one that leaves the core as it was (the
model's choice; log entry 11). -/
def Obligations.RunningMachineAlwaysSteps : Prop :=
  ∀ s : State, s.running = true → s.CanStep

/-- R33: `running` is 1 at reset; while it is 1 the machine takes steps, a held GETC or IN being in this model a step that
leaves the core as it was (log entry 11); while it is 0 it takes none (log entry 15); the HALT service makes it 0, nothing
else does, and no step makes it 1 again; no instruction reads it. -/
def Obligations.RunBitClearedOnlyByHalt : Prop :=
  State.reset.running = true ∧ (∀ s : State, s.running = true → ∃ t, step s = .next t) ∧
  (∀ s t : State, s.running = false → step s ≠ .next t) ∧
  (∀ s : State, ∃ t, exec .trapHalt s = .next t ∧ t.running = false) ∧
  (∀ s : State, s.running = true → decode s.params s.hostTurn.fetch.1 = .trapHalt →
    ∃ t, step s = .next t ∧ t.running = false) ∧
  (∀ s t : State, step s = .next t → t.running = false → decode s.params s.hostTurn.fetch.1 = .trapHalt) ∧
  (∀ (i : Instr) (s t : State), exec i s = .next t → s.running = false → t.running = false) ∧
  (∀ (i : Instr) (s t : State) (b : Bool), exec i s = .next t →
    ∃ u, exec i (s.withRunning b) = .next u ∧ u.withRunning true = t.withRunning true)

/-- R212: where number 0 selects BR, as in the default map (log entry 1), the zero word is a BR that never branches, so the
machine walks on by one address. -/
def Obligations.ZeroWordStepsToNextAddress : Prop :=
  ∀ s : State, s.params.opcodeAt 0 = .br → s.running = true → s.pc ≠ s.params.kbsrAddr →
    s.mem.readWord s.pc = 0x0000 →
    step s = .next { s.hostTurn with pc := s.pc + 1 }

/-! ## Whole-machine rules -/

/-- R22 with the DR of each rule: an instruction writes no general register but its own. -/
def Obligations.OnlyNamedRegistersAreWritten : Prop :=
  ∀ (i : Instr) (s t : State) (r : Reg), i.wf = true → exec i s = .next t → r ∉ writtenRegs i → t.reg r = s.reg r

/-- R30 with the spec's decision D18 (log entry 20): the writers of `cond` set it from the register of the table, unless
the step is held; no other instruction changes it. -/
def Obligations.FlagsWrittenOnlyByTheTable : Prop :=
  ∀ (i : Instr) (s t : State), i.wf = true → exec i s = .next t →
    (flagSource i = none → t.cond = s.cond) ∧
    (∀ r, flagSource i = some r → t.cond = condOf (t.reg r) ∨ waitsForInput i = true ∧ s.input = [] ∧ t.cond = s.cond)

/-- R26: after the increment only BR, JMP and JSR change `pc` again; every other instruction leaves it at the incremented
PC, unless the step is held (log entry 11). -/
def Obligations.PcChangedOnlyByControlTransfer : Prop :=
  ∀ (i : Instr) (s t : State), i.wf = true → exec i s = .next t → transfersControl i = false →
    t.pc = s.pc ∨ waitsForInput i = true ∧ s.input = [] ∧ t.pc = s.pc - 1

/-- R53 (its writers) and R55: an instruction that does not store changes no byte outside the two device words, and one
that neither stores nor reads memory changes no byte at all. -/
def Obligations.MemoryWrittenOnlyByStoresAndPoll : Prop :=
  ∀ (i : Instr) (s t : State), i.wf = true → exec i s = .next t → storesWord i = false →
    SameMemButDevice s t ∧ (readsMemory i = false → SameMem s t)

/-- R37, R36: bytes are only appended to the output, by the writers of R37 alone, and only taken from the front of `In`;
an instruction never touches what the host is still to append. -/
def Obligations.StreamsMoveOneWay : Prop :=
  ∀ (i : Instr) (s t : State), i.wf = true → exec i s = .next t →
    (∃ bs, t.output = s.output ++ bs) ∧ (writesOutput i = false → t.output = s.output) ∧
    (∃ taken, s.input = taken ++ t.input) ∧ t.arrivals = s.arrivals

/-- R37: the core never reads its output: two states that differ only in the bytes already written take the same step,
and go on to differ only there. -/
def Obligations.OutputIsNeverRead : Prop :=
  ∀ (s t : State) (before : List Byte), step s = .next t →
    step (s.withOutputBefore before) = .next (t.withOutputBefore before)

/-- The invariant, a canonical memory and parameters that meet R7's constraints, holds at reset with the default
parameters and with every choice that meets the constraints (the model's memory: log entry 16; its parameters: 26). -/
def Obligations.ResetMeetsInvariant : Prop :=
  State.reset.Inv ∧ ∀ p : Params, p.Valid → (State.resetWith p).Inv

/-- From every state with a canonical memory and parameters that meet R7's constraints, reachable or not, a step leads to
such a state (log entries 16, 26). -/
def Obligations.StepKeepsMemoryCanonical : Prop :=
  ∀ s t : State, s.Inv → step s = .next t → t.Inv

/-- Whatever the parameters within R7's constraints, whatever images are loaded and whatever the host supplies, every state
the machine reaches has a canonical memory and the parameters it was built with (log entries 13, 16, 17, 26). -/
def Obligations.EveryRunKeepsMemoryCanonical : Prop :=
  ∀ (p : Params) (files : List (List Byte)) (input : List Byte) (arrivals : List (List Byte)) (t : State),
    p.Valid → Reaches (State.boot p files input arrivals) t → t.Inv ∧ t.params = p

/-! ## Image loading (70_reset_and_hazards.md) -/

/-- R253, R254 with the spec's decision D17 (log entry 17): the words of a file are its byte pairs, high byte first, a
trailing byte being none; word 0 is the origin; word k + 1 is stored at origin + k as long as that is at most 0xFFFF; no
other word of memory changes, and nothing but memory does. -/
def Obligations.ImageLoadStoresItsWords : Prop :=
  (∀ file : List Byte, (imageWords file).length = file.length / 2) ∧
  (∀ (file : List Byte) (k : Nat) (hi lo : Byte), file[2 * k]? = some hi → file[2 * k + 1]? = some lo →
    (imageWords file)[k]? = some (hi ++ lo)) ∧
  (∀ (s : State) (file : List Byte), file.length < 2 → s.loadImage file = s) ∧
  (∀ (s : State) (file : List Byte) (origin : Word) (ws : List Word), imageWords file = origin :: ws →
    (∀ (a : Word) (w : Word), origin.toNat ≤ a.toNat → ws[a.toNat - origin.toNat]? = some w →
      (s.loadImage file).mem.readWord a = w) ∧
    (∀ a : Word, a.toNat < origin.toNat ∨ origin.toNat + ws.length ≤ a.toNat →
      (s.loadImage file).mem.readWord a = s.mem.readWord a) ∧
    s.loadImage file = { s with mem := (s.loadImage file).mem })

/-- R255, R258: images are loaded one after another in the order given, and where two cover an address the word of the
later one stays, at every address; the entry point stays 0x3000. -/
def Obligations.LaterImageWins : Prop :=
  (∀ (s : State) (files : List (List Byte)) (file : List Byte) (origin : Word) (ws : List Word) (a w : Word),
    imageWords file = origin :: ws → origin.toNat ≤ a.toNat → ws[a.toNat - origin.toNat]? = some w →
    (s.loadImages (files ++ [file])).mem.readWord a = w) ∧
  (∀ (s : State) (files : List (List Byte)) (file : List Byte),
    s.loadImages (files ++ [file]) = (s.loadImages files).loadImage file) ∧
  (∀ (p : Params) (files : List (List Byte)) (input : List Byte) (arrivals : List (List Byte)),
    (State.boot p files input arrivals).pc = 0x3000)

/-! ## The parameters (00_scope.md R7) -/

/-- R7: the open parameters are given to the machine and are no state of it: no instruction, no step and no image load
changes them (they are held in the state: log entry 26). -/
def Obligations.ParametersNeverChange : Prop :=
  (∀ (i : Instr) (s t : State), exec i s = .next t → t.params = s.params) ∧
  (∀ s t : State, step s = .next t → t.params = s.params) ∧
  (∀ (p : Params) (files : List (List Byte)) (input : List Byte) (arrivals : List (List Byte)),
    (State.boot p files input arrivals).params = p)
end

