-- ==== Sys2Proof/Laws/Encoding.lean ====
section
/-! SUPPORT. Sys2Proof/Laws/Encoding.lean: a field of a word put together from fields, and the two tables of the
encoding that undo each other. -/

namespace Sys2Proof

/-- A field that lies in the high part of a concatenation. -/
theorem extract_append_high {m n : Nat} (x : BitVec m) (y : BitVec n) (k w : Nat) (h : n ≤ k) :
    (x ++ y).extractLsb' k w = x.extractLsb' (k - n) w := by
  apply BitVec.eq_of_getLsbD_eq
  intro i hi
  simp only [BitVec.getLsbD_extractLsb', BitVec.getLsbD_append]
  rw [if_neg (by omega), show k + i - n = k - n + i by omega]

/-- A field that lies in the low part of a concatenation. -/
theorem extract_append_low {m n : Nat} (x : BitVec m) (y : BitVec n) (k w : Nat) (h : k + w ≤ n) :
    (x ++ y).extractLsb' k w = y.extractLsb' k w := by
  apply BitVec.eq_of_getLsbD_eq
  intro i hi
  simp only [BitVec.getLsbD_extractLsb', BitVec.getLsbD_append]
  rw [if_pos (by omega)]

/-- The field that is the whole value. -/
@[simp] theorem extract_all {n : Nat} (x : BitVec n) : x.extractLsb' 0 n = x := by
  apply BitVec.eq_of_getLsbD_eq
  intro i hi
  simp [hi]

/-- For parameters that meet R7's constraints the number of an opcode selects it. -/
theorem Params.opcodeAt_number {p : Params} (hp : p.Valid) (op : Opcode) : p.opcodeAt (p.opcodeNumber op) = op := by
  obtain ⟨n, hn⟩ := hp.1 op
  have hmem : op ∈ p.opcodeMap.toList := by
    rw [← hn]
    exact List.getElem_mem (l := p.opcodeMap.toList) (by simpa using n.isLt)
  have hlt : p.opcodeMap.toList.idxOf op < 16 := by simpa using List.idxOf_lt_length_of_mem hmem
  have hget := List.getElem_idxOf (x := op) (xs := p.opcodeMap.toList) (by simpa using hlt)
  unfold Params.opcodeAt Params.opcodeNumber
  simp only [BitVec.toNat_ofNat, Nat.mod_eq_of_lt hlt]
  rw [← Vector.getElem_toList]
  exact hget

@[simp] theorem Reg.ofBits_bits (r : Reg) : Reg.ofBits r.bits = r := by cases r <;> rfl

@[simp] theorem Reg.bits_ofBits : ∀ v : BitVec 3, (Reg.ofBits v).bits = v := by decide

/-! ### The opcode field of each format, for parameters that meet R7's constraints -/

variable {p : Params} (hp : p.Valid)

include hp

/-- A word whose bits [15:12] are an opcode's number carries that opcode. -/
theorem opcodeOf_of_number {op : Opcode} {w : Word} (h : w.extractLsb' 12 4 = p.opcodeNumber op) : opcodeOf p w = op :=
  (congrArg p.opcodeAt h).trans (Params.opcodeAt_number hp op)

theorem opcodeOf_encodeAluReg (op : Opcode) (dr sr1 sr2 : Reg) : opcodeOf p (encodeAluReg p op dr sr1 sr2) = op := by
  refine opcodeOf_of_number hp ?_
  unfold encodeAluReg
  rw [extract_append_high _ _ _ _ (by decide), extract_append_high _ _ _ _ (by decide),
    extract_append_high _ _ _ _ (by decide), extract_append_high _ _ _ _ (by decide),
    extract_append_high _ _ _ _ (by decide), extract_all]

theorem opcodeOf_encodeAluImm (op : Opcode) (dr sr1 : Reg) (imm : BitVec 5) :
    opcodeOf p (encodeAluImm p op dr sr1 imm) = op := by
  refine opcodeOf_of_number hp ?_
  unfold encodeAluImm
  rw [extract_append_high _ _ _ _ (by decide), extract_append_high _ _ _ _ (by decide),
    extract_append_high _ _ _ _ (by decide), extract_append_high _ _ _ _ (by decide), extract_all]

theorem opcodeOf_encodePcRel (op : Opcode) (r : Reg) (off : BitVec 9) : opcodeOf p (encodePcRel p op r off) = op := by
  refine opcodeOf_of_number hp ?_
  unfold encodePcRel
  rw [extract_append_high _ _ _ _ (by decide), extract_append_high _ _ _ _ (by decide), extract_all]

theorem opcodeOf_encodeBase (op : Opcode) (r base : Reg) (off : BitVec 6) :
    opcodeOf p (encodeBase p op r base off) = op := by
  refine opcodeOf_of_number hp ?_
  unfold encodeBase
  rw [extract_append_high _ _ _ _ (by decide), extract_append_high _ _ _ _ (by decide),
    extract_append_high _ _ _ _ (by decide), extract_all]

theorem opcodeOf_encodeTrap (vect : BitVec 8) : opcodeOf p (encodeTrap p vect) = .trap := by
  refine opcodeOf_of_number hp ?_
  unfold encodeTrap
  rw [extract_append_high _ _ _ _ (by decide), extract_append_high _ _ _ _ (by decide), extract_all]

end Sys2Proof
end

