-- ==== Sys2Proof/Laws/State.lean ====
section
/-! SUPPORT. Sys2Proof/Laws/State.lean: each field after each update of the state, so that no later proof unfolds a
record update. -/

namespace Sys2Proof.Machine

variable (s : State) (r dr : Reg) (v a target : Word) (bs : List Byte)

/-! ### Registers -/

@[simp] theorem Regs.get_set_self (x : Regs) : (x.set r v).get r = v := by cases r <;> rfl

theorem Regs.get_set_ne (x : Regs) {q r : Reg} (h : q ≠ r) : (x.set r v).get q = x.get q := by
  cases q <;> cases r <;> first | rfl | exact absurd rfl h

/-- Register files that read alike everywhere are equal. -/
theorem Regs.ext_get {x y : Regs} (h : ∀ r, x.get r = y.get r) : x = y := by
  cases x; cases y
  have h0 := h .r0; have h1 := h .r1; have h2 := h .r2; have h3 := h .r3
  have h4 := h .r4; have h5 := h .r5; have h6 := h .r6; have h7 := h .r7
  simp only [Regs.get] at h0 h1 h2 h3 h4 h5 h6 h7
  subst h0 h1 h2 h3 h4 h5 h6 h7
  rfl

/-! ### setReg -/

@[simp] theorem State.setReg_reg_self : (s.setReg r v).reg r = v := Regs.get_set_self r v s.regs

theorem State.setReg_reg_ne {q r : Reg} (h : q ≠ r) : (s.setReg r v).reg q = s.reg q := Regs.get_set_ne v s.regs h

theorem State.setReg_reg (q : Reg) : (s.setReg r v).reg q = if q = r then v else s.reg q := by
  split
  · next h => subst h; simp
  · next h => exact s.setReg_reg_ne v h

@[simp] theorem State.setReg_pc : (s.setReg r v).pc = s.pc := rfl
@[simp] theorem State.setReg_cond : (s.setReg r v).cond = s.cond := rfl
@[simp] theorem State.setReg_running : (s.setReg r v).running = s.running := rfl
@[simp] theorem State.setReg_mem : (s.setReg r v).mem = s.mem := rfl
@[simp] theorem State.setReg_input : (s.setReg r v).input = s.input := rfl
@[simp] theorem State.setReg_output : (s.setReg r v).output = s.output := rfl
@[simp] theorem State.setReg_arrivals : (s.setReg r v).arrivals = s.arrivals := rfl
@[simp] theorem State.setReg_params : (s.setReg r v).params = s.params := rfl

/-! ### setcc -/

@[simp] theorem State.setcc_cond : (s.setcc r).cond = condOf (s.reg r) := rfl
@[simp] theorem State.setcc_reg (q : Reg) : (s.setcc r).reg q = s.reg q := rfl
@[simp] theorem State.setcc_pc : (s.setcc r).pc = s.pc := rfl
@[simp] theorem State.setcc_running : (s.setcc r).running = s.running := rfl
@[simp] theorem State.setcc_mem : (s.setcc r).mem = s.mem := rfl
@[simp] theorem State.setcc_input : (s.setcc r).input = s.input := rfl
@[simp] theorem State.setcc_output : (s.setcc r).output = s.output := rfl
@[simp] theorem State.setcc_arrivals : (s.setcc r).arrivals = s.arrivals := rfl
@[simp] theorem State.setcc_params : (s.setcc r).params = s.params := rfl

/-! ### writeResult -/

@[simp] theorem State.writeResult_reg_self : (s.writeResult dr v).reg dr = v := s.setReg_reg_self dr v

theorem State.writeResult_reg (q : Reg) : (s.writeResult dr v).reg q = if q = dr then v else s.reg q :=
  s.setReg_reg dr v q

theorem State.writeResult_reg_ne {q dr : Reg} (h : q ≠ dr) : (s.writeResult dr v).reg q = s.reg q :=
  s.setReg_reg_ne v h

@[simp] theorem State.writeResult_cond : (s.writeResult dr v).cond = condOf v := by simp [State.writeResult]
@[simp] theorem State.writeResult_pc : (s.writeResult dr v).pc = s.pc := rfl
@[simp] theorem State.writeResult_running : (s.writeResult dr v).running = s.running := rfl
@[simp] theorem State.writeResult_mem : (s.writeResult dr v).mem = s.mem := rfl
@[simp] theorem State.writeResult_input : (s.writeResult dr v).input = s.input := rfl
@[simp] theorem State.writeResult_output : (s.writeResult dr v).output = s.output := rfl
@[simp] theorem State.writeResult_arrivals : (s.writeResult dr v).arrivals = s.arrivals := rfl
@[simp] theorem State.writeResult_params : (s.writeResult dr v).params = s.params := rfl

/-! ### link, setPc, hold -/

@[simp] theorem State.link_reg_r7 : s.link.reg .r7 = s.pc := s.setReg_reg_self .r7 s.pc

theorem State.link_reg_ne {q : Reg} (h : q ≠ .r7) : s.link.reg q = s.reg q := s.setReg_reg_ne s.pc h

@[simp] theorem State.link_reg_r0 : s.link.reg .r0 = s.reg .r0 := s.link_reg_ne (by decide)
@[simp] theorem State.link_pc : s.link.pc = s.pc := rfl
@[simp] theorem State.link_cond : s.link.cond = s.cond := rfl
@[simp] theorem State.link_running : s.link.running = s.running := rfl
@[simp] theorem State.link_mem : s.link.mem = s.mem := rfl
@[simp] theorem State.link_input : s.link.input = s.input := rfl
@[simp] theorem State.link_output : s.link.output = s.output := rfl
@[simp] theorem State.link_arrivals : s.link.arrivals = s.arrivals := rfl
@[simp] theorem State.link_params : s.link.params = s.params := rfl

@[simp] theorem State.setPc_pc : (s.setPc target).pc = target := rfl
@[simp] theorem State.setPc_reg (q : Reg) : (s.setPc target).reg q = s.reg q := rfl
@[simp] theorem State.setPc_cond : (s.setPc target).cond = s.cond := rfl
@[simp] theorem State.setPc_running : (s.setPc target).running = s.running := rfl
@[simp] theorem State.setPc_mem : (s.setPc target).mem = s.mem := rfl
@[simp] theorem State.setPc_input : (s.setPc target).input = s.input := rfl
@[simp] theorem State.setPc_output : (s.setPc target).output = s.output := rfl
@[simp] theorem State.setPc_arrivals : (s.setPc target).arrivals = s.arrivals := rfl
@[simp] theorem State.setPc_params : (s.setPc target).params = s.params := rfl

@[simp] theorem State.hold_pc : s.hold.pc = s.pc - 1 := rfl
@[simp] theorem State.hold_reg (q : Reg) : s.hold.reg q = s.reg q := rfl
@[simp] theorem State.hold_cond : s.hold.cond = s.cond := rfl
@[simp] theorem State.hold_running : s.hold.running = s.running := rfl
@[simp] theorem State.hold_mem : s.hold.mem = s.mem := rfl
@[simp] theorem State.hold_input : s.hold.input = s.input := rfl
@[simp] theorem State.hold_output : s.hold.output = s.output := rfl
@[simp] theorem State.hold_arrivals : s.hold.arrivals = s.arrivals := rfl
@[simp] theorem State.hold_params : s.hold.params = s.params := rfl

/-! ### emit, receive -/

@[simp] theorem State.emit_output : (s.emit bs).output = s.output ++ bs := rfl
@[simp] theorem State.emit_reg (q : Reg) : (s.emit bs).reg q = s.reg q := rfl
@[simp] theorem State.emit_pc : (s.emit bs).pc = s.pc := rfl
@[simp] theorem State.emit_cond : (s.emit bs).cond = s.cond := rfl
@[simp] theorem State.emit_running : (s.emit bs).running = s.running := rfl
@[simp] theorem State.emit_mem : (s.emit bs).mem = s.mem := rfl
@[simp] theorem State.emit_input : (s.emit bs).input = s.input := rfl
@[simp] theorem State.emit_arrivals : (s.emit bs).arrivals = s.arrivals := rfl
@[simp] theorem State.emit_params : (s.emit bs).params = s.params := rfl

@[simp] theorem State.receive_reg_r0 (b : Byte) : (s.receive b).reg .r0 = zext8 b := s.writeResult_reg_self .r0 _

theorem State.receive_reg_ne (b : Byte) {q : Reg} (h : q ≠ .r0) : (s.receive b).reg q = s.reg q :=
  s.writeResult_reg_ne _ h

@[simp] theorem State.receive_cond (b : Byte) : (s.receive b).cond = condOf (zext8 b) := s.writeResult_cond .r0 _
@[simp] theorem State.receive_pc (b : Byte) : (s.receive b).pc = s.pc := rfl
@[simp] theorem State.receive_running (b : Byte) : (s.receive b).running = s.running := rfl
@[simp] theorem State.receive_mem (b : Byte) : (s.receive b).mem = s.mem := rfl
@[simp] theorem State.receive_input (b : Byte) : (s.receive b).input = s.input := rfl
@[simp] theorem State.receive_output (b : Byte) : (s.receive b).output = s.output := rfl
@[simp] theorem State.receive_arrivals (b : Byte) : (s.receive b).arrivals = s.arrivals := rfl
@[simp] theorem State.receive_params (b : Byte) : (s.receive b).params = s.params := rfl

/-! ### memWrite -/

@[simp] theorem State.memWrite_mem : (s.memWrite a v).mem = s.mem.writeWord a v := rfl
@[simp] theorem State.memWrite_reg (q : Reg) : (s.memWrite a v).reg q = s.reg q := rfl
@[simp] theorem State.memWrite_pc : (s.memWrite a v).pc = s.pc := rfl
@[simp] theorem State.memWrite_cond : (s.memWrite a v).cond = s.cond := rfl
@[simp] theorem State.memWrite_running : (s.memWrite a v).running = s.running := rfl
@[simp] theorem State.memWrite_input : (s.memWrite a v).input = s.input := rfl
@[simp] theorem State.memWrite_output : (s.memWrite a v).output = s.output := rfl
@[simp] theorem State.memWrite_arrivals : (s.memWrite a v).arrivals = s.arrivals := rfl
@[simp] theorem State.memWrite_params : (s.memWrite a v).params = s.params := rfl

/-! ### kbdPoll and busAction: only the two device words and `In` can change -/

@[simp] theorem State.kbdPoll_regs : s.kbdPoll.regs = s.regs := by unfold State.kbdPoll; split <;> rfl
@[simp] theorem State.kbdPoll_reg (q : Reg) : s.kbdPoll.reg q = s.reg q := by simp [State.reg]
@[simp] theorem State.kbdPoll_pc : s.kbdPoll.pc = s.pc := by unfold State.kbdPoll; split <;> rfl
@[simp] theorem State.kbdPoll_cond : s.kbdPoll.cond = s.cond := by unfold State.kbdPoll; split <;> rfl
@[simp] theorem State.kbdPoll_running : s.kbdPoll.running = s.running := by unfold State.kbdPoll; split <;> rfl
@[simp] theorem State.kbdPoll_output : s.kbdPoll.output = s.output := by unfold State.kbdPoll; split <;> rfl
@[simp] theorem State.kbdPoll_arrivals : s.kbdPoll.arrivals = s.arrivals := by unfold State.kbdPoll; split <;> rfl
@[simp] theorem State.kbdPoll_params : s.kbdPoll.params = s.params := by unfold State.kbdPoll; split <;> rfl

theorem State.busAction_kbsr : s.busAction s.params.kbsrAddr = s.kbdPoll := if_pos rfl

theorem State.busAction_ne {a : Word} (h : a ≠ s.params.kbsrAddr) : s.busAction a = s := if_neg h

@[simp] theorem State.busAction_regs : (s.busAction a).regs = s.regs := by unfold State.busAction; split <;> simp
@[simp] theorem State.busAction_reg (q : Reg) : (s.busAction a).reg q = s.reg q := by simp [State.reg]
@[simp] theorem State.busAction_pc : (s.busAction a).pc = s.pc := by unfold State.busAction; split <;> simp
@[simp] theorem State.busAction_cond : (s.busAction a).cond = s.cond := by unfold State.busAction; split <;> simp
@[simp] theorem State.busAction_running : (s.busAction a).running = s.running := by
  unfold State.busAction; split <;> simp
@[simp] theorem State.busAction_output : (s.busAction a).output = s.output := by unfold State.busAction; split <;> simp
@[simp] theorem State.busAction_arrivals : (s.busAction a).arrivals = s.arrivals := by
  unfold State.busAction; split <;> simp
@[simp] theorem State.busAction_params : (s.busAction a).params = s.params := by unfold State.busAction; split <;> simp

@[simp] theorem State.memRead_state : (s.memRead a).2 = s.busAction a := rfl

theorem State.memRead_word : (s.memRead a).1 = (s.busAction a).mem.readWord a := rfl

/-! ### load: DR, `cond`, and what the bus read changes -/

@[simp] theorem State.load_reg_self : (s.load dr a).reg dr = (s.memRead a).1 := State.writeResult_reg_self _ dr _

theorem State.load_reg_ne {q dr : Reg} (h : q ≠ dr) : (s.load dr a).reg q = s.reg q :=
  (State.writeResult_reg_ne _ _ h).trans (s.busAction_reg a q)

@[simp] theorem State.load_cond : (s.load dr a).cond = condOf (s.memRead a).1 := State.writeResult_cond _ dr _
@[simp] theorem State.load_pc : (s.load dr a).pc = s.pc := s.busAction_pc a
@[simp] theorem State.load_running : (s.load dr a).running = s.running := s.busAction_running a
@[simp] theorem State.load_mem : (s.load dr a).mem = (s.busAction a).mem := rfl
@[simp] theorem State.load_input : (s.load dr a).input = (s.busAction a).input := rfl
@[simp] theorem State.load_output : (s.load dr a).output = s.output := s.busAction_output a
@[simp] theorem State.load_arrivals : (s.load dr a).arrivals = s.arrivals := s.busAction_arrivals a
@[simp] theorem State.load_params : (s.load dr a).params = s.params := s.busAction_params a

/-! ### hostTurn: only `In` and `arrivals` can change -/

@[simp] theorem State.hostTurn_reg (q : Reg) : s.hostTurn.reg q = s.reg q := by unfold State.hostTurn; split <;> rfl
@[simp] theorem State.hostTurn_pc : s.hostTurn.pc = s.pc := by unfold State.hostTurn; split <;> rfl
@[simp] theorem State.hostTurn_cond : s.hostTurn.cond = s.cond := by unfold State.hostTurn; split <;> rfl
@[simp] theorem State.hostTurn_running : s.hostTurn.running = s.running := by unfold State.hostTurn; split <;> rfl
@[simp] theorem State.hostTurn_mem : s.hostTurn.mem = s.mem := by unfold State.hostTurn; split <;> rfl
@[simp] theorem State.hostTurn_params : s.hostTurn.params = s.params := by unfold State.hostTurn; split <;> rfl
@[simp] theorem State.hostTurn_output : s.hostTurn.output = s.output := by unfold State.hostTurn; split <;> rfl

theorem State.hostTurn_none {s : State} (h : s.arrivals = []) : s.hostTurn = s := by
  unfold State.hostTurn
  split
  · rfl
  · next h' => simp [h] at h'

theorem State.hostTurn_some {s : State} {bs : List Byte} {rest : List (List Byte)} (h : s.arrivals = bs :: rest) :
    s.hostTurn = { s with input := s.input ++ bs, arrivals := rest } := by
  unfold State.hostTurn
  split
  · next h' => simp [h] at h'
  · next h' => rw [h] at h'; cases h'; rfl

/-! ### fetch -/

@[simp] theorem State.fetch_reg (q : Reg) : s.fetch.2.reg q = s.reg q := s.busAction_reg s.pc q
@[simp] theorem State.fetch_pc : s.fetch.2.pc = s.pc + 1 := congrArg (· + 1) (s.busAction_pc s.pc)
@[simp] theorem State.fetch_cond : s.fetch.2.cond = s.cond := s.busAction_cond s.pc
@[simp] theorem State.fetch_running : s.fetch.2.running = s.running := s.busAction_running s.pc
@[simp] theorem State.fetch_output : s.fetch.2.output = s.output := s.busAction_output s.pc
@[simp] theorem State.fetch_arrivals : s.fetch.2.arrivals = s.arrivals := s.busAction_arrivals s.pc
@[simp] theorem State.fetch_params : s.fetch.2.params = s.params := s.busAction_params s.pc
@[simp] theorem State.fetch_mem : s.fetch.2.mem = (s.busAction s.pc).mem := rfl
@[simp] theorem State.fetch_input : s.fetch.2.input = (s.busAction s.pc).input := rfl

end Sys2Proof.Machine
end

