-- ==== Sys2Proof/Laws/Ops.lean ====
section
/-! SUPPORT. Sys2Proof/Laws/Ops.lean: for each shared operation what it can do: storage (read after write, the canonical
form), the keyboard poll and the bus, the string loop, and waiting for a byte. -/

namespace Sys2Proof.Machine

/-! ### One byte cell -/

theorem Memory.readByte_erase_self (m : Memory) (k : Nat) : (m.eraseByte k).readByte k = Config.unlisted := by
  induction m with
  | nil => rfl
  | cons c rest ih =>
    simp only [Memory.eraseByte]
    split
    · exact ih
    · next h => simp [Memory.readByte, h, ih]

theorem Memory.readByte_erase_ne (m : Memory) {j k : Nat} (h : j ≠ k) : (m.eraseByte k).readByte j = m.readByte j := by
  induction m with
  | nil => rfl
  | cons c rest ih =>
    simp only [Memory.eraseByte]
    split
    · next hc => simp [Memory.readByte, ih, show c.1 ≠ j by omega]
    · simp [Memory.readByte, ih]

theorem Memory.readByte_insert_ne (m : Memory) {j k : Nat} (v : Byte) (h : j ≠ k) :
    (m.insertByte k v).readByte j = m.readByte j := by
  induction m with
  | nil => simp [Memory.insertByte, Memory.readByte, Ne.symm h]
  | cons c rest ih =>
    simp only [Memory.insertByte]
    split
    · simp [Memory.readByte, Ne.symm h]
    · simp [Memory.readByte, ih]

theorem Memory.readByte_insert_self (m : Memory) (k : Nat) (v : Byte) :
    ((m.eraseByte k).insertByte k v).readByte k = v := by
  induction m with
  | nil => simp [Memory.eraseByte, Memory.insertByte, Memory.readByte]
  | cons c rest ih =>
    simp only [Memory.eraseByte]
    split
    · exact ih
    · next h =>
      simp only [Memory.insertByte]
      split <;> simp [Memory.readByte, h, ih]

@[simp] theorem Memory.readByte_write_self (m : Memory) (k : Nat) (v : Byte) : (m.writeByte k v).readByte k = v := by
  unfold Memory.writeByte
  split
  · next h => rw [Memory.readByte_erase_self, h]
  · exact Memory.readByte_insert_self m k v

theorem Memory.readByte_write_ne (m : Memory) {j k : Nat} (v : Byte) (h : j ≠ k) :
    (m.writeByte k v).readByte j = m.readByte j := by
  unfold Memory.writeByte
  split
  · exact Memory.readByte_erase_ne m h
  · rw [Memory.readByte_insert_ne _ _ h, Memory.readByte_erase_ne m h]

/-! ### The canonical form -/

theorem Memory.wfFrom_mono {lo lo' : Nat} (h : lo' ≤ lo) {m : Memory} (hm : Memory.wfFrom lo m = true) :
    Memory.wfFrom lo' m = true := by
  cases m with
  | nil => rfl
  | cons c rest =>
    simp only [Memory.wfFrom, Bool.and_eq_true, decide_eq_true_eq] at hm ⊢
    exact ⟨⟨⟨by omega, hm.1.1.2⟩, hm.1.2⟩, hm.2⟩

theorem Memory.wfFrom_erase (k : Nat) {m : Memory} : ∀ {lo : Nat}, Memory.wfFrom lo m = true →
    Memory.wfFrom lo (m.eraseByte k) = true := by
  induction m with
  | nil => intro lo _; rfl
  | cons c rest ih =>
    intro lo hm
    simp only [Memory.wfFrom, Bool.and_eq_true, decide_eq_true_eq] at hm
    simp only [Memory.eraseByte]
    split
    · exact Memory.wfFrom_mono (by omega) (ih hm.2)
    · simp only [Memory.wfFrom, Bool.and_eq_true, decide_eq_true_eq]
      exact ⟨hm.1, ih hm.2⟩

theorem Memory.wfFrom_insert {k : Nat} {v : Byte} (hk : k < Config.memCells) (hv : v ≠ Config.unlisted) {m : Memory} :
    ∀ {lo : Nat}, lo ≤ k → Memory.wfFrom lo (m.eraseByte k) = true →
      Memory.wfFrom lo ((m.eraseByte k).insertByte k v) = true := by
  induction m with
  | nil =>
    intro lo hlo _
    simp [Memory.eraseByte, Memory.insertByte, Memory.wfFrom, hlo, hk, hv]
  | cons c rest ih =>
    intro lo hlo hm
    simp only [Memory.eraseByte] at hm ⊢
    split
    · next h => rw [if_pos h] at hm; exact ih hlo hm
    · next h =>
      rw [if_neg h] at hm
      simp only [Memory.wfFrom, Bool.and_eq_true, decide_eq_true_eq] at hm
      simp only [Memory.insertByte]
      split
      · simp only [Memory.wfFrom, Bool.and_eq_true, decide_eq_true_eq]
        exact ⟨⟨⟨hlo, hk⟩, hv⟩, ⟨⟨by omega, hm.1.1.2⟩, hm.1.2⟩, hm.2⟩
      · simp only [Memory.wfFrom, Bool.and_eq_true, decide_eq_true_eq]
        exact ⟨hm.1, ih (by omega) hm.2⟩

/-- Writing a byte cell of the memory keeps the canonical form. -/
theorem Memory.wf_writeByte {m : Memory} {k : Nat} (hk : k < Config.memCells) (v : Byte) (hm : m.wf = true) :
    (m.writeByte k v).wf = true := by
  unfold Memory.writeByte
  split
  · exact Memory.wfFrom_erase k hm
  · next hv => exact Memory.wfFrom_insert hk hv (Nat.zero_le k) (Memory.wfFrom_erase k hm)

/-- A canonical memory lists nothing below its first bound. -/
theorem Memory.wfFrom_readByte_lt {lo k : Nat} (h : k < lo) : ∀ {m : Memory}, Memory.wfFrom lo m = true →
    m.readByte k = Config.unlisted := by
  intro m
  induction m generalizing lo with
  | nil => intro _; rfl
  | cons c rest ih =>
    intro hm
    simp only [Memory.wfFrom, Bool.and_eq_true, decide_eq_true_eq] at hm
    simp only [Memory.readByte]
    rw [if_neg (by omega)]
    exact ih (by omega) hm.2

/-! ### One word -/

theorem highCell_lt (a : Word) : highCell a < Config.memCells := by
  have := a.isLt
  unfold highCell Config.memCells Config.memWords
  omega

theorem lowCell_lt (a : Word) : lowCell a < Config.memCells := by
  have := a.isLt
  unfold lowCell Config.memCells Config.memWords
  omega

theorem highCell_ne_lowCell (a b : Word) : highCell a ≠ lowCell b := by unfold highCell lowCell; omega

theorem highCell_inj {a b : Word} (h : a ≠ b) : highCell a ≠ highCell b := by
  unfold highCell
  intro hh
  exact h (BitVec.eq_of_toNat_eq (by omega))

theorem lowCell_inj {a b : Word} (h : a ≠ b) : lowCell a ≠ lowCell b := by
  unfold lowCell
  intro hh
  exact h (BitVec.eq_of_toNat_eq (by omega))

/-- The two halves of a word make it up again. -/
theorem highByte_append_lowByte (w : Word) : (highByte w ++ lowByte w : Word) = w := by
  apply BitVec.eq_of_getLsbD_eq
  intro i hi
  simp only [highByte, lowByte, BitVec.getLsbD_append, BitVec.getLsbD_extractLsb']
  by_cases h : i < 8
  · simp [h]
  · have h2 : i - 8 < 8 := by omega
    have h3 : 8 + (i - 8) = i := by omega
    simp [h, h2, h3]

/-- After a word write, a byte outside the word reads as before. -/
theorem Memory.readByte_writeWord_ne (m : Memory) (a v : Word) {k : Nat} (h1 : k ≠ highCell a) (h2 : k ≠ lowCell a) :
    (m.writeWord a v).readByte k = m.readByte k := by
  unfold Memory.writeWord
  rw [Memory.readByte_write_ne _ _ h2, Memory.readByte_write_ne _ _ h1]

/-- A word read after a write of that word. -/
@[simp] theorem Memory.readWord_write_self (m : Memory) (a v : Word) : (m.writeWord a v).readWord a = v := by
  unfold Memory.readWord Memory.writeWord
  rw [Memory.readByte_write_self, Memory.readByte_write_ne _ _ (highCell_ne_lowCell a a), Memory.readByte_write_self]
  exact highByte_append_lowByte v

/-- A word read after a write of another word. -/
theorem Memory.readWord_write_ne (m : Memory) {a b : Word} (v : Word) (h : b ≠ a) :
    (m.writeWord a v).readWord b = m.readWord b := by
  unfold Memory.readWord
  rw [Memory.readByte_writeWord_ne m a v (highCell_inj h) (highCell_ne_lowCell b a),
    Memory.readByte_writeWord_ne m a v (highCell_ne_lowCell a b).symm (lowCell_inj h)]

/-- Writing a word keeps the canonical form. -/
theorem Memory.wf_writeWord {m : Memory} (a v : Word) (hm : m.wf = true) : (m.writeWord a v).wf = true :=
  Memory.wf_writeByte (lowCell_lt a) _ (Memory.wf_writeByte (highCell_lt a) _ hm)

/-! ### The keyboard poll and the bus (R50 to R53) -/

theorem State.kbdPoll_empty {s : State} (h : s.input = []) :
    s.kbdPoll = { s with mem := s.mem.writeWord s.params.kbsrAddr 0 } := by
  unfold State.kbdPoll
  split
  · rfl
  · next h' => simp [h] at h'

theorem State.kbdPoll_byte {s : State} {b : Byte} {rest : List Byte} (h : s.input = b :: rest) :
    s.kbdPoll =
      { s with mem := (s.mem.writeWord s.params.kbsrAddr 0x8000).writeWord s.params.kbdrAddr (zext8 b), input := rest } := by
  unfold State.kbdPoll
  split
  · next h' => simp [h] at h'
  · next h' => rw [h] at h'; cases h'; rfl

theorem State.kbdPoll_mem_empty {s : State} (h : s.input = []) : s.kbdPoll.mem = s.mem.writeWord s.params.kbsrAddr 0 := by
  rw [State.kbdPoll_empty h]

theorem State.kbdPoll_mem_byte {s : State} {b : Byte} {rest : List Byte} (h : s.input = b :: rest) :
    s.kbdPoll.mem = (s.mem.writeWord s.params.kbsrAddr 0x8000).writeWord s.params.kbdrAddr (zext8 b) := by
  rw [State.kbdPoll_byte h]

theorem State.kbdPoll_input (s : State) : s.kbdPoll.input = s.input.tail := by
  cases h : s.input with
  | nil => simp [State.kbdPoll_empty h, h]
  | cons b rest => simp [State.kbdPoll_byte h]

theorem State.wf_kbdPoll {s : State} (h : s.mem.wf = true) : s.kbdPoll.mem.wf = true := by
  cases hi : s.input with
  | nil => rw [State.kbdPoll_empty hi]; exact Memory.wf_writeWord s.params.kbsrAddr 0 h
  | cons b rest =>
    rw [State.kbdPoll_byte hi]
    exact Memory.wf_writeWord s.params.kbdrAddr (zext8 b) (Memory.wf_writeWord s.params.kbsrAddr 0x8000 h)

/-- A bus read keeps the canonical form. -/
theorem State.wf_busAction {s : State} (a : Word) (h : s.mem.wf = true) : (s.busAction a).mem.wf = true := by
  unfold State.busAction
  split
  · exact State.wf_kbdPoll h
  · exact h

/-- The poll leaves every byte outside the two device words. -/
theorem State.kbdPoll_readByte (s : State) {k : Nat} (h1 : k ≠ highCell s.params.kbsrAddr) (h2 : k ≠ lowCell s.params.kbsrAddr)
    (h3 : k ≠ highCell s.params.kbdrAddr) (h4 : k ≠ lowCell s.params.kbdrAddr) : s.kbdPoll.mem.readByte k = s.mem.readByte k := by
  cases hi : s.input with
  | nil => rw [State.kbdPoll_empty hi]; exact Memory.readByte_writeWord_ne s.mem s.params.kbsrAddr 0 h1 h2
  | cons b rest =>
    rw [State.kbdPoll_byte hi]
    exact (Memory.readByte_writeWord_ne _ s.params.kbdrAddr (zext8 b) h3 h4).trans
      (Memory.readByte_writeWord_ne s.mem s.params.kbsrAddr 0x8000 h1 h2)

/-- A bus read leaves every byte outside the two device words. -/
theorem State.busAction_readByte (s : State) (a : Word) {k : Nat} (h1 : k ≠ highCell s.params.kbsrAddr)
    (h2 : k ≠ lowCell s.params.kbsrAddr) (h3 : k ≠ highCell s.params.kbdrAddr) (h4 : k ≠ lowCell s.params.kbdrAddr) :
    (s.busAction a).mem.readByte k = s.mem.readByte k := by
  unfold State.busAction
  split
  · exact s.kbdPoll_readByte h1 h2 h3 h4
  · rfl

/-- A bus read takes bytes of `In` from its front only. -/
theorem State.busAction_input (s : State) (a : Word) : ∃ taken, s.input = taken ++ (s.busAction a).input := by
  unfold State.busAction
  split
  · cases h : s.input with
    | nil => exact ⟨[], by simp [State.kbdPoll_empty h, h]⟩
    | cons b rest => exact ⟨[b], by simp [State.kbdPoll_byte h]⟩
  · exact ⟨[], rfl⟩

/-! ### The string loop (R188, R189, R195) -/

theorem scanLoop_succ (bytes : Word → List Byte) (fuel : Nat) (a : Word) (s : State) :
    scanLoop bytes (fuel + 1) a s =
      if (s.memRead a).1 = 0 then (s.memRead a).2
      else scanLoop bytes fuel (a + 1) ((s.memRead a).2.emit (bytes (s.memRead a).1)) := rfl

/-- What every read and every write to the output keeps, the loop keeps. -/
theorem scanLoop_keeps (P : State → Prop) (hread : ∀ s a, P s → P (s.busAction a)) (hemit : ∀ s bs, P s → P (s.emit bs))
    (bytes : Word → List Byte) (fuel : Nat) : ∀ (a : Word) (s : State), P s → P (scanLoop bytes fuel a s) := by
  induction fuel with
  | zero => intro a s h; exact h
  | succ n ih =>
    intro a s h
    rw [scanLoop_succ]
    split
    · exact hread s a h
    · exact ih _ _ (hemit _ _ (hread s a h))

/-- What every read and every write to the output keeps, the services PUTS and PUTSP keep. -/
theorem scanString_keeps (P : State → Prop) (hread : ∀ s a, P s → P (s.busAction a))
    (hemit : ∀ s bs, P s → P (s.emit bs)) (bytes : Word → List Byte) (a : Word) (s : State) (h : P s) :
    P (scanString bytes a s) := scanLoop_keeps P hread hemit bytes _ a s h

/-- The string loop changes neither registers, `pc`, `cond`, the run bit, `arrivals` nor the parameters. -/
theorem scanString_core (bytes : Word → List Byte) (a : Word) (s : State) :
    (scanString bytes a s).regs = s.regs ∧ (scanString bytes a s).pc = s.pc ∧ (scanString bytes a s).cond = s.cond ∧
      (scanString bytes a s).running = s.running ∧ (scanString bytes a s).arrivals = s.arrivals ∧
      (scanString bytes a s).params = s.params := by
  refine scanString_keeps
    (fun t => t.regs = s.regs ∧ t.pc = s.pc ∧ t.cond = s.cond ∧ t.running = s.running ∧ t.arrivals = s.arrivals ∧
      t.params = s.params)
    ?_ ?_ bytes a s ⟨rfl, rfl, rfl, rfl, rfl, rfl⟩
  · intro t b h
    simpa using h
  · intro t bs h
    exact h

/-- The string loop keeps the canonical form. -/
theorem wf_scanString (bytes : Word → List Byte) (a : Word) {s : State} (h : s.mem.wf = true) :
    (scanString bytes a s).mem.wf = true :=
  scanString_keeps (fun t => t.mem.wf = true) (fun _ b ht => State.wf_busAction b ht) (fun _ _ ht => ht) bytes a s h

/-- The string loop leaves every byte outside the two device words. -/
theorem scanString_readByte (bytes : Word → List Byte) (a : Word) (s : State) {k : Nat} (h1 : k ≠ highCell s.params.kbsrAddr)
    (h2 : k ≠ lowCell s.params.kbsrAddr) (h3 : k ≠ highCell s.params.kbdrAddr) (h4 : k ≠ lowCell s.params.kbdrAddr) :
    (scanString bytes a s).mem.readByte k = s.mem.readByte k :=
  (scanString_keeps (fun t => t.params = s.params ∧ t.mem.readByte k = s.mem.readByte k)
    (fun t b ht => ⟨(t.busAction_params b).trans ht.1,
      (t.busAction_readByte b (ht.1 ▸ h1) (ht.1 ▸ h2) (ht.1 ▸ h3) (ht.1 ▸ h4)).trans ht.2⟩)
    (fun _ _ ht => ht) bytes a s ⟨rfl, rfl⟩).2

/-- A change of the state that bus reads and writes to the output commute with, and that leaves memory, `In` and the
parameters, commutes with the string loop. -/
theorem scanString_map (f : State → State) (hread : ∀ s a, (f s).busAction a = f (s.busAction a))
    (hemit : ∀ s bs, (f s).emit bs = f (s.emit bs)) (hmem : ∀ s, (f s).mem = s.mem) (hin : ∀ s, (f s).input = s.input)
    (hp : ∀ s, (f s).params = s.params)
    (bytes : Word → List Byte) (a : Word) (s : State) : scanString bytes a (f s) = f (scanString bytes a s) := by
  have loop : ∀ (fuel : Nat) (a : Word) (s : State), scanLoop bytes fuel a (f s) = f (scanLoop bytes fuel a s) := by
    intro fuel
    induction fuel with
    | zero => intro a s; rfl
    | succ n ih =>
      intro a s
      have hw : ((f s).memRead a).1 = (s.memRead a).1 := by
        simp only [State.memRead_word, hread, hmem]
      rw [scanLoop_succ, scanLoop_succ, hw]
      split
      · exact hread s a
      · rw [State.memRead_state, hread, hemit, ih]
        rfl
  unfold scanString scanBound
  rw [hin, hp, loop]

/-- The registers after the string loop, one by one. -/
theorem scanString_reg (bytes : Word → List Byte) (a : Word) (s : State) (r : Reg) :
    (scanString bytes a s).reg r = s.reg r := congrArg (fun x => Regs.get x r) (scanString_core bytes a s).1

/-! ### Waiting for a byte (R183) -/

theorem State.withByte_empty {s : State} (h : s.input = []) (k : Byte → State → State) :
    s.withByte k = .next s.hold := by
  unfold State.withByte
  split
  · rfl
  · next h' => simp [h] at h'

theorem State.withByte_byte {s : State} {b : Byte} {rest : List Byte} (h : s.input = b :: rest)
    (k : Byte → State → State) : s.withByte k = .next (k b { s with input := rest }) := by
  unfold State.withByte
  split
  · next h' => simp [h] at h'
  · next h' => rw [h] at h'; cases h'; rfl

/-- What GETC answers: a held step with `In` empty, else the byte received. -/
theorem execTrapGetc_cases {s t : State} (h : execTrapGetc s = .next t) :
    (s.input = [] ∧ t = s.hold) ∨
      ∃ b rest, s.input = b :: rest ∧ t = (State.link { s with input := rest }).receive b := by
  unfold execTrapGetc at h
  cases hi : s.input with
  | nil => rw [State.withByte_empty hi] at h; cases h; exact .inl ⟨rfl, rfl⟩
  | cons b rest => rw [State.withByte_byte hi] at h; cases h; exact .inr ⟨b, rest, rfl, rfl⟩

/-- What IN answers: a held step with `In` empty, else the prompt, the echo and the byte received. -/
theorem execTrapIn_cases {s t : State} (h : execTrapIn s = .next t) :
    (s.input = [] ∧ t = s.hold) ∨
      ∃ b rest, s.input = b :: rest ∧
        t = (((State.link { s with input := rest }).emit s.params.inPrompt).emit [b]).receive b := by
  unfold execTrapIn at h
  cases hi : s.input with
  | nil => rw [State.withByte_empty hi] at h; cases h; exact .inl ⟨rfl, rfl⟩
  | cons b rest => rw [State.withByte_byte hi] at h; cases h; exact .inr ⟨b, rest, rfl, rfl⟩

/-! ### Operands -/

/-- Zero extension keeps the value (R83). -/
@[simp] theorem zext8_toNat (b : Byte) : (zext8 b).toNat = b.toNat := by
  have := b.isLt
  simp only [zext8, BitVec.toNat_setWidth]
  omega

/-- The spec's sign extension is the library's. -/
theorem sext_eq_signExtend {n : Nat} (h0 : 0 < n) (h : n ≤ 16) (v : BitVec n) : sext v = v.signExtend 16 := by
  apply BitVec.eq_of_getLsbD_eq
  intro i hi
  rw [BitVec.getLsbD_signExtend]
  unfold sext
  have hones : ∀ j, j < 16 → (0xFFFF#16).getLsbD j = true := by decide
  by_cases ht : v.getLsbD (n - 1) = true
  · rw [if_pos ht]
    rw [BitVec.getLsbD_or, BitVec.getLsbD_shiftLeft, BitVec.getLsbD_setWidth, BitVec.msb_eq_getLsbD_last, ht]
    by_cases hn : i < n
    · simp [hi, hn]
    · simp only [hi, hn, if_false]
      rw [hones (i - n) (by omega)]
      simp
  · rw [if_neg ht, BitVec.getLsbD_setWidth, BitVec.msb_eq_getLsbD_last]
    by_cases hn : i < n
    · simp [hi, hn]
    · simp only [Bool.not_eq_true] at ht
      simp [hi, hn, ht, BitVec.getLsbD_of_ge v i (by omega)]

end Sys2Proof.Machine
end

