-- ==== Sys2Proof/Laws/Image.lean ====
section
/-! SUPPORT. Sys2Proof/Laws/Image.lean: loading images changes the memory only, and keeps its canonical form. -/

namespace Sys2Proof.Machine

/-- Storing the words of an image keeps the canonical form. -/
theorem wf_storeWords : ∀ (ws : List Word) (a : Nat) {m : Memory}, m.wf = true → (storeWords a ws m).wf = true
  | [], _, _, h => h
  | w :: ws, a, m, h => by
    unfold storeWords
    split
    · exact wf_storeWords ws (a + 1) (Memory.wf_writeWord _ w h)
    · exact h

/-- Loading an image is a change of the memory. -/
theorem State.loadImage_eq (s : State) (file : List Byte) : s.loadImage file = { s with mem := (s.loadImage file).mem } := by
  unfold State.loadImage
  split <;> rfl

/-- Loading an image keeps the canonical form. -/
theorem State.wf_loadImage {s : State} (file : List Byte) (h : s.mem.wf = true) : (s.loadImage file).mem.wf = true := by
  unfold State.loadImage
  split
  · exact h
  · exact wf_storeWords _ _ h

/-- Loading images keeps the canonical form. -/
theorem State.wf_loadImages (files : List (List Byte)) : ∀ {s : State}, s.mem.wf = true →
    (s.loadImages files).mem.wf = true := by
  induction files with
  | nil => intro s h; exact h
  | cons f fs ih => intro s h; exact ih (State.wf_loadImage f h)

end Sys2Proof.Machine
end

