-- ==== Sys2Proof/Laws/PerInstr.lean ====
section
/-! SUPPORT. Sys2Proof/Laws/PerInstr.lean: the statements made for each constructor of Instr: the family EncodedOpcode,
that the encoder puts the instruction's own opcode where the decoder reads it (30_encoding.md R80, R84). -/

namespace Sys2Proof.Laws.EncodedOpcode

/-- For all parameters that meet R7's constraints, the word the encoder gives carries the instruction's opcode in bits
[15:12]. -/
def Statement (i : Instr) : Prop := ∀ p : Params, p.Valid → opcodeOf p (encode p i) = i.opcode

theorem br (mask : BitVec 3) (off : BitVec 9) : Statement (.br mask off) := fun p hp => by
  refine opcodeOf_of_number hp ?_
  unfold encode Instr.opcode
  rw [extract_append_high _ _ _ _ (by decide), extract_append_high _ _ _ _ (by decide), extract_all]

theorem addReg (dr sr1 sr2 : Reg) : Statement (.addReg dr sr1 sr2) := fun _ hp => opcodeOf_encodeAluReg hp .add dr sr1 sr2
theorem addImm (dr sr1 : Reg) (imm : BitVec 5) : Statement (.addImm dr sr1 imm) :=
  fun _ hp => opcodeOf_encodeAluImm hp .add dr sr1 imm
theorem ld (dr : Reg) (off : BitVec 9) : Statement (.ld dr off) := fun _ hp => opcodeOf_encodePcRel hp .ld dr off
theorem st (sr : Reg) (off : BitVec 9) : Statement (.st sr off) := fun _ hp => opcodeOf_encodePcRel hp .st sr off

theorem jsr (off : BitVec 11) : Statement (.jsr off) := fun p hp => by
  refine opcodeOf_of_number hp ?_
  unfold encode Instr.opcode
  rw [extract_append_high _ _ _ _ (by decide), extract_append_high _ _ _ _ (by decide), extract_all]

theorem jsrr (base : Reg) : Statement (.jsrr base) := fun p hp => by
  refine opcodeOf_of_number hp ?_
  unfold encode Instr.opcode
  rw [extract_append_high _ _ _ _ (by decide), extract_append_high _ _ _ _ (by decide),
    extract_append_high _ _ _ _ (by decide), extract_all]

theorem andReg (dr sr1 sr2 : Reg) : Statement (.andReg dr sr1 sr2) := fun _ hp => opcodeOf_encodeAluReg hp .and dr sr1 sr2
theorem andImm (dr sr1 : Reg) (imm : BitVec 5) : Statement (.andImm dr sr1 imm) :=
  fun _ hp => opcodeOf_encodeAluImm hp .and dr sr1 imm
theorem ldr (dr base : Reg) (off : BitVec 6) : Statement (.ldr dr base off) :=
  fun _ hp => opcodeOf_encodeBase hp .ldr dr base off
theorem str (sr base : Reg) (off : BitVec 6) : Statement (.str sr base off) :=
  fun _ hp => opcodeOf_encodeBase hp .str sr base off

theorem rti : Statement .rti := fun p hp => by
  refine opcodeOf_of_number hp ?_
  unfold encode Instr.opcode
  rw [extract_append_high _ _ _ _ (by decide), extract_all]

theorem not (dr sr : Reg) : Statement (.not dr sr) := fun p hp => by
  refine opcodeOf_of_number hp ?_
  unfold encode Instr.opcode
  rw [extract_append_high _ _ _ _ (by decide), extract_append_high _ _ _ _ (by decide),
    extract_append_high _ _ _ _ (by decide), extract_all]

theorem ldi (dr : Reg) (off : BitVec 9) : Statement (.ldi dr off) := fun _ hp => opcodeOf_encodePcRel hp .ldi dr off
theorem sti (sr : Reg) (off : BitVec 9) : Statement (.sti sr off) := fun _ hp => opcodeOf_encodePcRel hp .sti sr off

theorem jmp (base : Reg) : Statement (.jmp base) := fun p hp => by
  refine opcodeOf_of_number hp ?_
  unfold encode Instr.opcode
  rw [extract_append_high _ _ _ _ (by decide), extract_append_high _ _ _ _ (by decide),
    extract_append_high _ _ _ _ (by decide), extract_all]

theorem res : Statement .res := fun p hp => by
  refine opcodeOf_of_number hp ?_
  unfold encode Instr.opcode
  rw [extract_append_high _ _ _ _ (by decide), extract_all]

theorem lea (dr : Reg) (off : BitVec 9) : Statement (.lea dr off) := fun _ hp => opcodeOf_encodePcRel hp .lea dr off
theorem trapGetc : Statement .trapGetc := fun _ hp => opcodeOf_encodeTrap hp 0x20
theorem trapOut : Statement .trapOut := fun _ hp => opcodeOf_encodeTrap hp 0x21
theorem trapPuts : Statement .trapPuts := fun _ hp => opcodeOf_encodeTrap hp 0x22
theorem trapIn : Statement .trapIn := fun _ hp => opcodeOf_encodeTrap hp 0x23
theorem trapPutsp : Statement .trapPutsp := fun _ hp => opcodeOf_encodeTrap hp 0x24
theorem trapHalt : Statement .trapHalt := fun _ hp => opcodeOf_encodeTrap hp 0x25
theorem trap (vect : BitVec 8) : Statement (.trap vect) := fun _ hp => opcodeOf_encodeTrap hp vect

end Sys2Proof.Laws.EncodedOpcode
end

