-- ==== Sys2Proof/Tests/Slice0.lean ====
section
/-! SUPPORT. Sys2Proof/Tests/Slice0.lean: the package's own tests. Expected results are those of spec/95_test_vectors.md
(S1 to S15, V1 to V71) or are worked out by hand from the encoding tables of 30_encoding.md (R91, R92). The theorems
witness_… show that the hypotheses of the statements in Certificates/Slice0/Obligations.lean are met. -/

namespace Sys2Proof.Tests

open Sys2Proof Sys2Proof.Machine

/-- A memory with these words stored in order, all else 0. -/
def words (l : List (Word × Word)) : Memory := l.foldl (fun m c => m.writeWord c.1 c.2) []

/-- The reset state with `pc` and memory given. -/
def start (pc : Word) (l : List (Word × Word)) : State := { State.reset with pc := pc, mem := words l }

/-- A step answers a next state, and `p` holds of it. -/
def stepGives (s : State) (p : State → Bool) : Bool :=
  match step s with
  | .next t => p t
  | .fault _ => false
  | .refused _ => false

/-- `exec` answers a next state, and `p` holds of it. -/
def execGives (i : Instr) (s : State) (p : State → Bool) : Bool :=
  match exec i s with
  | .next t => p t
  | .fault _ => false
  | .refused _ => false

/-! ### WellFormed: the check refuses the general TRAP with a service's vector (R90), and only that -/

theorem test_wf_refuses_trap_getc : (Instr.trap 0x20).wf = false := by decide
theorem test_wf_refuses_trap_out : (Instr.trap 0x21).wf = false := by decide
theorem test_wf_refuses_trap_puts : (Instr.trap 0x22).wf = false := by decide
theorem test_wf_refuses_trap_in : (Instr.trap 0x23).wf = false := by decide
theorem test_wf_refuses_trap_putsp : (Instr.trap 0x24).wf = false := by decide
theorem test_wf_refuses_trap_halt : (Instr.trap 0x25).wf = false := by decide
theorem test_wf_accepts_neighbours : (Instr.trap 0x1F).wf = true ∧ (Instr.trap 0x26).wf = true := by decide

/-! ### Decoding: one word written out bit by bit from R91 and R92 for every constructor -/

theorem test_decode_alu :
    decode .default 0b0001_011_100_0_00_101 = .addReg .r3 .r4 .r5 ∧
    decode .default 0b0001_001_110_1_10000 = .addImm .r1 .r6 0b10000 ∧
    decode .default 0b0101_111_000_0_00_010 = .andReg .r7 .r0 .r2 ∧
    decode .default 0b0101_010_101_1_01111 = .andImm .r2 .r5 0b01111 ∧
    decode .default 0b1001_110_001_111111 = .not .r6 .r1 := by decide
theorem test_decode_control :
    decode .default 0b0000_101_100000001 = .br 0b101 0b100000001 ∧ decode .default 0b1100_000_011_000000 = .jmp .r3 ∧
    decode .default 0b0100_1_10000000011 = .jsr 0b10000000011 ∧
    decode .default 0b0100_0_00_101_000000 = .jsrr .r5 := by decide
theorem test_decode_load_store :
    decode .default 0b0010_100_111111110 = .ld .r4 0b111111110 ∧
    decode .default 0b1010_001_000000101 = .ldi .r1 0b000000101 ∧
    decode .default 0b0110_011_010_100001 = .ldr .r3 .r2 0b100001 ∧
    decode .default 0b1110_101_011111111 = .lea .r5 0b011111111 ∧
    decode .default 0b0011_110_000000111 = .st .r6 0b000000111 ∧
    decode .default 0b1011_000_100000000 = .sti .r0 0b100000000 ∧
    decode .default 0b0111_111_001_011110 = .str .r7 .r1 0b011110 := by decide
theorem test_decode_trap :
    decode .default 0xF020 = .trapGetc ∧ decode .default 0xF021 = .trapOut ∧ decode .default 0xF022 = .trapPuts ∧
    decode .default 0xF023 = .trapIn ∧
    decode .default 0xF024 = .trapPutsp ∧ decode .default 0xF025 = .trapHalt ∧ decode .default 0xF026 = .trap 0x26 ∧
    decode .default 0xF01F = .trap 0x1F := by
  decide
theorem test_decode_reserved : decode .default 0x8000 = .rti ∧ decode .default 0x8FFF = .rti ∧
    decode .default 0xD000 = .res ∧ decode .default 0xDFFF = .res := by
  decide
/-- V5 to V11. -/
theorem test_decode_ignored_bits :
    decode .default 0x105A = .addReg .r0 .r1 .r2 ∧ decode .default 0x9200 = .not .r1 .r0 ∧
    decode .default 0xCFC0 = .jmp .r7 ∧
    decode .default 0xC1FF = .jmp .r7 ∧ decode .default 0xFF25 = .trapHalt ∧ decode .default 0x4000 = .jsrr .r0 ∧
    decode .default 0x4800 = .jsr 0 := by decide
theorem test_decode_bytes : decodeBytes .default [0xF0, 0x25, 0x12] = .ok (.trapHalt, [0x12]) ∧
    decodeBytes .default [0xF0] = .error .noWholeWord ∧ decodeTableWord 16 0x1042 = some (.addReg .r0 .r1 .r2) :=
  ⟨rfl, rfl, by decide⟩
/-- Words of the programs P1 and P2. -/
theorem test_encode : encode .default (.addImm .r1 .r1 0x1F) = 0x127F ∧ encode .default (.not .r1 .r0) = 0x923F ∧
    encode .default (.str .r3 .r2 2) = 0x7682 ∧ encode .default (.br 1 0x1FD) = 0x03FD ∧ encode .default (.jsr 2) = 0x4802 ∧
    encode .default .trapHalt = 0xF025 := by decide

/-! ### Operands and flags: V1 to V4, S5, S6 -/

theorem test_sext : sext 0x10#5 = 0xFFF0 ∧ sext 0x0F#5 = 0x000F ∧ sext 0x20#6 = 0xFFE0 ∧ sext 0x1F#6 = 0x001F ∧
    sext 0x100#9 = 0xFF00 ∧ sext 0x0FF#9 = 0x00FF ∧ sext 0x400#11 = 0xFC00 ∧ sext 0x3FF#11 = 0x03FF ∧
    sext 0b1000000#7 = 0xFFC0 := by decide
theorem test_flags : condOf 0 = .zero ∧ condOf 0x8000 = .negative ∧ condOf 0x0001 = .positive ∧
    condOf 0x7FFF = .positive := by
  decide

/-! ### ADD, AND, NOT -/

/-- V12b. -/
theorem test_add_reg : stepGives (((start 0x3000 [(0x3000, 0x1042)]).setReg .r1 0x7FFF).setReg .r2 1) (fun t =>
    t.reg .r0 == 0x8000 && t.cond == .negative && t.pc == 0x3001) = true := by decide
/-- V12d. -/
theorem test_add_reg_same : stepGives ((start 0x3000 [(0x3000, 0x1241)]).setReg .r1 0x4000) (fun t =>
    t.reg .r1 == 0x8000 && t.cond == .negative) = true := by decide
/-- V13a. -/
theorem test_add_imm : stepGives (start 0x3000 [(0x3000, 0x127F)]) (fun t =>
    t.reg .r1 == 0xFFFF && t.cond == .negative && t.pc == 0x3001) = true := by decide
/-- V13b. -/
theorem test_add_imm_low : stepGives ((start 0x3000 [(0x3000, 0x10B0)]).setReg .r2 0x0010) (fun t =>
    t.reg .r0 == 0 && t.cond == .zero) = true := by decide
/-- V14. -/
theorem test_and_reg : stepGives (((start 0x3000 [(0x3000, 0x5042)]).setReg .r1 0xF0F0).setReg .r2 0x8F0F) (fun t =>
    t.reg .r0 == 0x8000 && t.cond == .negative) = true := by decide
/-- V14b. -/
theorem test_and_imm_negative : stepGives ((start 0x3000 [(0x3000, 0x56F0)]).setReg .r3 0x1234) (fun t =>
    t.reg .r3 == 0x1230 && t.cond == .positive) = true := by decide
/-- V14a. -/
theorem test_and_imm : stepGives ((start 0x3000 [(0x3000, 0x56EF)]).setReg .r3 0x1234) (fun t =>
    t.reg .r3 == 0x0004 && t.cond == .positive) = true := by decide
/-- V15. -/
theorem test_not : stepGives ((start 0x3000 [(0x3000, 0x923F)]).setReg .r0 0x1234) (fun t =>
    t.reg .r1 == 0xEDCB && t.cond == .negative && t.reg .r0 == 0x1234) = true := by decide

/-! ### BR, JMP, JSR -/

/-- V16. -/
theorem test_br_taken :
    stepGives { start 0x3005 [(0x3005, 0x03FD)] with cond := .positive } (fun t => t.pc == 0x3003) = true := by
  decide
/-- V17. -/
theorem test_br_not_taken : stepGives (start 0x3005 [(0x3005, 0x03FD)]) (fun t => t.pc == 0x3006) = true := by decide
/-- V21. -/
theorem test_jmp : stepGives ((start 0x3000 [(0x3000, 0xC080)]).setReg .r2 0x4000) (fun t =>
    t.pc == 0x4000 && t.reg .r7 == 0) = true := by decide
/-- V23. -/
theorem test_jsr_back :
    stepGives (start 0x3010 [(0x3010, 0x4FF0)]) (fun t => t.reg .r7 == 0x3011 && t.pc == 0x3001) = true := by
  decide
/-- V25a. -/
theorem test_jsr_flags : stepGives ((start 0x3000 [(0x3000, 0x4800)]).setReg .r7 0x8000) (fun t =>
    t.reg .r7 == 0x3001 && t.pc == 0x3001 && t.cond == .zero) = true := by decide
/-- V24. -/
theorem test_jsrr : stepGives ((start 0x3010 [(0x3010, 0x4080)]).setReg .r2 0x5000) (fun t =>
    t.reg .r7 == 0x3011 && t.pc == 0x5000) = true := by decide
/-- V25. -/
theorem test_jsrr_r7 : stepGives ((start 0x3010 [(0x3010, 0x41C0)]).setReg .r7 0x1111) (fun t =>
    t.reg .r7 == 0x3011 && t.pc == 0x3011) = true := by decide

/-! ### Loads, LEA, stores -/

/-- V28. -/
theorem test_ld_top : stepGives (start 0xFFFF [(0xFFFF, 0x21FF)]) (fun t =>
    t.reg .r0 == 0x21FF && t.cond == .positive && t.pc == 0) = true := by decide
/-- V29. -/
theorem test_ld_zero : stepGives ((start 0x3000 [(0x3000, 0x2004)]).setReg .r0 0x7777) (fun t =>
    t.reg .r0 == 0 && t.cond == .zero) = true := by decide
/-- V30. -/
theorem test_ldi : stepGives (start 0x3007 [(0x3007, 0xA805), (0x300D, 0x300C), (0x300C, 0xEDCC)]) (fun t =>
    t.reg .r4 == 0xEDCC && t.cond == .negative) = true := by decide
/-- P4, the poll through a pointer with a byte pending. -/
theorem test_ldi_polls : stepGives { start 0x3000 [(0x3000, 0xA204), (0x3005, 0xFE00)] with input := [0x41] } (fun t =>
    t.reg .r1 == 0x8000 && t.cond == .negative && t.input == [] && t.mem.readWord 0xFE02 == 0x0041) = true := by decide
/-- V31. -/
theorem test_ldr : stepGives ((start 0x3000 [(0x3000, 0x6681), (0x300B, 0xEDCC)]).setReg .r2 0x300A) (fun t =>
    t.reg .r3 == 0xEDCC && t.reg .r2 == 0x300A && t.cond == .negative) = true := by decide
/-- V33. -/
theorem test_ldr_same : stepGives ((start 0x3000 [(0x3000, 0x6240), (0x4000, 0x4001)]).setReg .r1 0x4000) (fun t =>
    t.reg .r1 == 0x4001 && t.cond == .positive) = true := by decide
/-- V34. -/
theorem test_lea :
    stepGives (start 0x3004 [(0x3004, 0xE405)]) (fun t => t.reg .r2 == 0x300A && t.cond == .positive) = true := by
  decide
/-- V36. -/
theorem test_lea_negative : stepGives (start 0x7FFF [(0x7FFF, 0xE000)]) (fun t =>
    t.reg .r0 == 0x8000 && t.cond == .negative) = true := by decide
/-- V37. -/
theorem test_st : stepGives ((start 0x3003 [(0x3003, 0x3207)]).setReg .r1 0xEDCC) (fun t =>
    t.mem.readWord 0x300B == 0xEDCC && t.cond == .zero) = true := by decide
/-- V39. -/
theorem test_sti : stepGives ((start 0x3008 [(0x3008, 0xB005), (0x300E, 0x4000)]).setReg .r0 0x1234) (fun t =>
    t.mem.readWord 0x4000 == 0x1234 && t.mem.readWord 0x300E == 0x4000) = true := by decide
/-- V40. -/
theorem test_str : stepGives (((start 0x3006 [(0x3006, 0x7682)]).setReg .r2 0x300A).setReg .r3 0xEDCC) (fun t =>
    t.mem.readWord 0x300C == 0xEDCC) = true := by decide
/-- V41. -/
theorem test_str_wraps : stepGives ((start 0x3000 [(0x3000, 0x7481)]).setReg .r2 0xFFFF) (fun t =>
    t.mem.readWord 0x0000 == 0xFFFF) = true := by decide

/-! ### The memory bus: V42 to V48 -/

/-- V42. -/
theorem test_poll_empty : ((start 0x3000 [(0xFE02, 0x0055)]).memRead 0xFE00).1 = 0 ∧
    ((start 0x3000 [(0xFE02, 0x0055)]).memRead 0xFE00).2.mem.readWord 0xFE02 = 0x0055 := by decide
/-- V43. -/
theorem test_poll_byte : (({ start 0x3000 [] with input := [0x61, 0x62] } : State).memRead 0xFE00).1 = 0x8000 ∧
    ((({ start 0x3000 [] with input := [0x61, 0x62] } : State).memRead 0xFE00).2.memRead 0xFE02).1 = 0x0061 ∧
    (({ start 0x3000 [] with input := [0x61, 0x62] } : State).memRead 0xFE00).2.input = [0x62] := by decide
/-- V46. -/
theorem test_device_store_then_poll : (((start 0x3000 []).memWrite 0xFE00 0x1234).memRead 0xFE00).1 = 0 := by decide
/-- V48. -/
theorem test_fetch_polls : stepGives { start 0xFE00 [(0xFE00, 0x1234)] with input := [0x61] } (fun t =>
    t.mem.readWord 0xFE00 == 0x8000 && t.mem.readWord 0xFE02 == 0x0061 && t.input == [] && t.pc == 0xFE01) = true := by decide

/-! ### TRAP and its services -/

/-- V49. -/
theorem test_getc : stepGives { start 0x3000 [(0x3000, 0xF020)] with input := [0x41] } (fun t =>
    t.reg .r0 == 0x0041 && t.cond == .positive && t.input == [] && t.output == [] && t.reg .r7 == 0x3001) = true := by decide
/-- V52: the step is held, and nothing has changed. -/
theorem test_getc_holds :
    stepGives (start 0x3000 [(0x3000, 0xF020)]) (fun t => t == start 0x3000 [(0x3000, 0xF020)]) = true := by
  decide
/-- V53. -/
theorem test_out : stepGives ((start 0x3000 [(0x3000, 0xF021)]).setReg .r0 0x0141) (fun t =>
    t.output == [0x41] && t.reg .r0 == 0x0141 && t.reg .r7 == 0x3001 && t.cond == .zero) = true := by decide
/-- V57. -/
theorem test_puts_wraps : stepGives ((start 0x3000 [(0x3000, 0xF022), (0xFFFF, 0x41), (0x0000, 0x42)]).setReg .r0 0xFFFF)
    (fun t => t.output == [0x41, 0x42] && t.reg .r0 == 0xFFFF && t.reg .r7 == 0x3001) = true := by decide
/-- V62. -/
theorem test_puts_polls : stepGives
    ((start 0x3000 [(0x3000, 0xF022), (0xFDFF, 0x41), (0xFE00, 0x1234)]).setReg .r0 0xFDFF)
    (fun t => t.output == [0x41] && t.mem.readWord 0xFE00 == 0) = true := by decide
/-- V58. -/
theorem test_in : stepGives { start 0x3000 [(0x3000, 0xF023)] with input := [0x7A] } (fun t =>
    t.output == Params.default.inPrompt ++ [0x7A] && t.output.length == 20 && t.reg .r0 == 0x7A && t.cond == .positive &&
    t.input == []) = true := by decide
/-- R192 with `In` empty: held before the prompt. -/
theorem test_in_holds :
    stepGives (start 0x3000 [(0x3000, 0xF023)]) (fun t => t == start 0x3000 [(0x3000, 0xF023)]) = true := by
  decide
/-- V59. -/
theorem test_putsp : stepGives
    ((start 0x3000 [(0x3000, 0xF024), (0x4000, 0x6548), (0x4001, 0x0079), (0x4002, 0x4100)]).setReg .r0 0x4000)
    (fun t => t.output == [0x48, 0x65, 0x79, 0x00, 0x41] && t.reg .r7 == 0x3001) = true := by decide
/-- V60. -/
theorem test_halt : stepGives (start 0x3000 [(0x3000, 0xF025)]) (fun t =>
    t.running == false && t.output == [0x48, 0x41, 0x4C, 0x54, 0x0A] && t.pc == 0x3001 && t.reg .r7 == 0x3001) = true := by
  decide
/-- R33: no further step. -/
theorem test_halted : step { State.reset with running := false } = .fault .halted := rfl
/-- V61. -/
theorem test_trap_undefined : stepGives (start 0x3000 [(0x3000, 0xF0FF)]) (fun t =>
    t.reg .r7 == 0x3001 && t.running && t.output == [] && t.cond == .zero && t.pc == 0x3001) = true := by decide
/-- V64. -/
theorem test_rti : stepGives (start 0x3000 [(0x3000, 0x8FFF)]) (fun t =>
    t == { start 0x3000 [(0x3000, 0x8FFF)] with pc := 0x3001 }) = true := by decide
/-- V65. -/
theorem test_res : stepGives (start 0x3000 [(0x3000, 0xDFFF)]) (fun t =>
    t == { start 0x3000 [(0x3000, 0xDFFF)] with pc := 0x3001 }) = true := by decide
/-- R36: a byte the host appends before the step is seen by it. -/
theorem test_arrival : stepGives { start 0x3000 [(0x3000, 0xF020)] with arrivals := [[0x41], [0x42]] } (fun t =>
    t.reg .r0 == 0x0041 && t.input == [] && t.arrivals == [[0x42]]) = true := by decide
/-- The host's placing of a word: the first step after reset runs it. -/
theorem test_withFetchWord :
    stepGives (State.reset.withFetchWord 16 0xF025) (fun t => t.running == false) = true := by decide

/-! ### Images: V66 to V69 -/

theorem test_image_top : (State.reset.loadImage [0xFF, 0xFE, 0x11, 0x11, 0x22, 0x22, 0x33, 0x33]).mem =
    words [(0xFFFE, 0x1111), (0xFFFF, 0x2222)] := by decide
theorem test_image_odd : (State.reset.loadImage [0x30, 0x00, 0x12, 0x34, 0x56]).mem = words [(0x3000, 0x1234)] := by decide
theorem test_images_later_wins :
    (State.reset.loadImages [[0x30, 0x00, 0xAA, 0xAA, 0xBB, 0xBB], [0x30, 0x01, 0xCC, 0xCC]]).mem =
    words [(0x3000, 0xAAAA), (0x3001, 0xCCCC)] := by decide

/-! ### Another choice of the open parameters (R7): the step follows the machine's own -/

/-- A choice that meets R7's constraints and differs from the default in all but COND_Z and the texts. -/
def other : Params :=
  { Params.default with
    opcodeMap := #v[.add, .br, .ld, .st, .jsr, .and, .ldr, .str, .rti, .not, .ldi, .sti, .jmp, .res, .lea, .trap]
    modeImm := false
    condP := 0b100
    condN := 0b001
    kbsrAddr := 0x3005
    kbdrAddr := 0x3006 }

/-- Number 0 selects ADD and bit 5 = 0 the immediate form: 0x0042 is ADD R0, R1, #2. -/
theorem test_other_opcode_map : stepGives (({ start 0x3000 [(0x3000, 0x0042)] with params := other } : State).setReg .r1 5)
    (fun t => t.reg .r0 == 7 && t.cond == .positive) = true := by decide
/-- Number 1 selects BR, and mask bit 11 POSITIVE. -/
theorem test_other_flags : stepGives { start 0x3000 [(0x3000, 0x1805)] with params := other, cond := .positive } (fun t =>
    t.pc == 0x3006) = true := by decide
/-- A load of the keyboard-status word at its other address polls. -/
theorem test_other_device : stepGives { start 0x3000 [(0x3000, 0x2004)] with params := other, input := [0x61] } (fun t =>
    t.reg .r0 == 0x8000 && t.mem.readWord 0x3006 == 0x0061 && t.input == []) = true := by decide

/-! ### Witnesses: the hypotheses of each statement are met -/

/-- The default parameters and another choice meet R7's constraints. -/
theorem witness_Params_valid : Params.default.Valid ∧ other.Valid ∧ other ≠ Params.default := by
  refine ⟨⟨fun op => ?_, by decide, by decide, by decide, by decide, by decide, by decide, by decide, by decide, by decide⟩,
    ⟨fun op => ?_, by decide, by decide, by decide, by decide, by decide, by decide, by decide, by decide, by decide⟩, by decide⟩
  · exact ⟨Params.default.opcodeNumber op, by cases op <;> rfl⟩
  · exact ⟨other.opcodeNumber op, by cases op <;> rfl⟩

theorem witness_DecodeOfEncodeIsInstruction : (Instr.trap 0x26).wf = true ∧
    (Instr.addImm .r7 .r0 0x10).wf = true := by decide
theorem witness_DecoderReadsFieldsByOpcode :
    Params.default.opcodeAt ((0x1042 : Word).extractLsb' 12 4) = .add ∧
    Params.default.opcodeAt ((0x5042 : Word).extractLsb' 12 4) = .and ∧
    Params.default.opcodeAt ((0x923F : Word).extractLsb' 12 4) = .not ∧
    Params.default.opcodeAt ((0x03FD : Word).extractLsb' 12 4) = .br ∧
    Params.default.opcodeAt ((0xC1C0 : Word).extractLsb' 12 4) = .jmp ∧
    Params.default.opcodeAt ((0x4802 : Word).extractLsb' 12 4) = .jsr ∧
    Params.default.opcodeAt ((0x2009 : Word).extractLsb' 12 4) = .ld ∧
    Params.default.opcodeAt ((0xA805 : Word).extractLsb' 12 4) = .ldi ∧
    Params.default.opcodeAt ((0xE405 : Word).extractLsb' 12 4) = .lea ∧
    Params.default.opcodeAt ((0x3207 : Word).extractLsb' 12 4) = .st ∧
    Params.default.opcodeAt ((0xB005 : Word).extractLsb' 12 4) = .sti ∧
    Params.default.opcodeAt ((0x6681 : Word).extractLsb' 12 4) = .ldr ∧
    Params.default.opcodeAt ((0x7682 : Word).extractLsb' 12 4) = .str ∧
    Params.default.opcodeAt ((0xF025 : Word).extractLsb' 12 4) = .trap ∧
    Params.default.opcodeAt ((0x8000 : Word).extractLsb' 12 4) = .rti ∧
    Params.default.opcodeAt ((0xD000 : Word).extractLsb' 12 4) = .res := by decide
theorem witness_OpcodeTableRowsDecode :
    (0x0FFF : Word) &&& 0xF000 = 0x0000 ∧ (0x1FDF : Word) &&& 0xF020 = 0x1000 ∧ (0x1FFF : Word) &&& 0xF020 = 0x1020 ∧
    (0x2FFF : Word) &&& 0xF000 = 0x2000 ∧ (0x3FFF : Word) &&& 0xF000 = 0x3000 ∧ (0x4FFF : Word) &&& 0xF800 = 0x4800 ∧
    (0x47FF : Word) &&& 0xF800 = 0x4000 ∧ (0x5FDF : Word) &&& 0xF020 = 0x5000 ∧ (0x5FFF : Word) &&& 0xF020 = 0x5020 ∧
    (0x6FFF : Word) &&& 0xF000 = 0x6000 ∧ (0x7FFF : Word) &&& 0xF000 = 0x7000 ∧ (0x8FFF : Word) &&& 0xF000 = 0x8000 ∧
    (0x9FFF : Word) &&& 0xF000 = 0x9000 ∧ (0xAFFF : Word) &&& 0xF000 = 0xA000 ∧ (0xBFFF : Word) &&& 0xF000 = 0xB000 ∧
    (0xCFFF : Word) &&& 0xF000 = 0xC000 ∧ (0xDFFF : Word) &&& 0xF000 = 0xD000 ∧ (0xEFFF : Word) &&& 0xF000 = 0xE000 ∧
    (0xFF20 : Word) &&& 0xF0FF = 0xF020 ∧ (0xFF21 : Word) &&& 0xF0FF = 0xF021 ∧ (0xFF22 : Word) &&& 0xF0FF = 0xF022 ∧
    (0xFF23 : Word) &&& 0xF0FF = 0xF023 ∧ (0xFF24 : Word) &&& 0xF0FF = 0xF024 ∧ (0xFF25 : Word) &&& 0xF0FF = 0xF025 ∧
    (0xFF26 : Word) &&& 0xF000 = 0xF000 ∧
    Config.serviceVectors.contains ((0xFF26 : Word).extractLsb' 0 8) = false := by decide
theorem witness_UncoveredBitsAreIgnored :
    opcodeOf .default 0x923F = .not ∧ opcodeOf .default 0xC1C0 = .jmp ∧ opcodeOf .default 0x4080 = .jsr ∧
    (0x4080 : Word).getLsbD 11 = false ∧
    opcodeOf .default 0x1042 = .add ∧ (0x1042 : Word).getLsbD 5 ≠ Params.default.modeImm ∧ opcodeOf .default 0x5042 = .and ∧
    (0x5042 : Word).getLsbD 5 ≠ Params.default.modeImm ∧ opcodeOf .default 0xF025 = .trap ∧
    opcodeOf .default 0x8000 = .rti ∧ opcodeOf .default 0xD000 = .res := by decide
/-- At a field of one bit, of 9 bits and of 16 bits; the clauses at the bits 8, 9 and 15 of the second. -/
theorem witness_SignExtensionFillsHigherBits : (1 ≤ 1 ∧ 1 ≤ 16) ∧ (1 ≤ 9 ∧ 9 ≤ 16) ∧ (1 ≤ 16 ∧ 16 ≤ 16) ∧
    (sext 0x100#9).getLsbD 8 = true ∧ (sext 0x100#9).getLsbD 9 = true ∧ (sext 0x0FF#9).getLsbD 15 = false := by decide
/-- The running address of a string at the last address. -/
theorem witness_AddressesWrapModulo65536 : ((start 0x3001 [(0xFFFF, 0x0041)]).memRead 0xFFFF).1 ≠ 0x0000 := by decide
/-- The three clauses at 0x0000, 0x8000, 0xFFFF, 0x0001 and 0x7FFF. -/
theorem witness_SetccFollowsTheValue : State.reset.reg .r3 = 0x0000 ∧
    ((State.reset.setReg .r3 0x8000).reg .r3 ≠ 0 ∧ ((State.reset.setReg .r3 0x8000).reg .r3).getLsbD 15 = true) ∧
    ((State.reset.setReg .r3 0xFFFF).reg .r3 ≠ 0 ∧ ((State.reset.setReg .r3 0xFFFF).reg .r3).getLsbD 15 = true) ∧
    ((State.reset.setReg .r3 1).reg .r3 ≠ 0 ∧ ((State.reset.setReg .r3 1).reg .r3).getLsbD 15 = false) ∧
    ((State.reset.setReg .r3 0x7FFF).reg .r3 ≠ 0 ∧
    ((State.reset.setReg .r3 0x7FFF).reg .r3).getLsbD 15 = false) := by decide
theorem witness_CanonicalMemoriesAreEqualData :
    (words [(0x3000, 0x1200), (0x0000, 0x0034)]).wf = true ∧ (words [(0x0000, 0x0034), (0x3000, 0x1200)]).wf = true ∧
    ∀ k, (words [(0x3000, 0x1200), (0x0000, 0x0034)]).readByte k = (words [(0x0000, 0x0034), (0x3000, 0x1200)]).readByte k :=
  ⟨by decide, by decide, fun k => congrArg (fun m => Memory.readByte m k)
    (show words [(0x3000, 0x1200), (0x0000, 0x0034)] = words [(0x0000, 0x0034), (0x3000, 0x1200)] by decide)⟩
theorem witness_OrdinaryReadHasNoSideEffect : (0xFDFF : Word) ≠ Params.default.kbsrAddr ∧
    (0xFE01 : Word) ≠ Params.default.kbsrAddr ∧ Params.default.kbdrAddr ≠ Params.default.kbsrAddr := by
  decide
theorem witness_StatusReadPollsKeyboard : State.reset.input = [] ∧
    ({ State.reset with input := [0x61, 0x62] } : State).input = 0x61 :: [0x62] := by decide
theorem witness_FetchSeesTheStore : (0xFFFF : Word) ≠ Params.default.kbsrAddr := by decide
theorem witness_AddRegisterWritesSum : opcodeOf .default 0x1042 = .add ∧
    (0x1042 : Word).getLsbD 5 ≠ Params.default.modeImm := by decide
theorem witness_AddImmediateWritesSum : opcodeOf .default 0x127F = .add ∧
    (0x127F : Word).getLsbD 5 = Params.default.modeImm ∧
    (0x10#5).toInt = -16 ∧ (0x0F#5).toInt = 15 := by decide
theorem witness_AndRegisterWritesAnd : opcodeOf .default 0x5042 = .and ∧
    (0x5042 : Word).getLsbD 5 ≠ Params.default.modeImm := by decide
theorem witness_AndImmediateWritesAnd : opcodeOf .default 0x56EF = .and ∧
    (0x56EF : Word).getLsbD 5 = Params.default.modeImm := by decide
theorem witness_NotWritesComplement : opcodeOf .default 0x923F = .not := by decide
/-- BR: taken and not taken, for each flag value. -/
theorem witness_BrBranchesOnMatchingFlag : opcodeOf .default 0x03FD = .br ∧
    (0b001#3 &&& condBits .default .positive ≠ 0 ∧ 0b010#3 &&& condBits .default .zero ≠ 0 ∧
    0b100#3 &&& condBits .default .negative ≠ 0) ∧
    (0b110#3 &&& condBits .default .positive = 0 ∧ 0b101#3 &&& condBits .default .zero = 0 ∧
    0b011#3 &&& condBits .default .negative = 0) := by decide
theorem witness_JmpGoesToRegister : opcodeOf .default 0xC1C0 = .jmp := by decide
theorem witness_JsrLinksAndBranches : opcodeOf .default 0x4802 = .jsr ∧ (0x4802 : Word).getLsbD 11 = true := by decide
theorem witness_JsrrLinksThenReadsBase : opcodeOf .default 0x4080 = .jsr ∧ (0x4080 : Word).getLsbD 11 = false ∧
    Reg.r6 ≠ .r7 := by decide
/-- LD at the neighbours 0xFDFF and 0xFE01 of the keyboard-status word. -/
theorem witness_LdLoadsPcRelativeWord : opcodeOf .default 0x2009 = .ld ∧
    pcRel (start 0xFE00 []).pc (0x1FF : BitVec 9) ≠ Params.default.kbsrAddr ∧
    pcRel (start 0xFE00 []).pc (1 : BitVec 9) ≠ Params.default.kbsrAddr := by decide
theorem witness_LdiLoadsThroughPointer : opcodeOf .default 0xA805 = .ldi ∧
    pcRel (start 0x3008 [(0x300D, 0xFE02)]).pc (5 : BitVec 9) ≠ Params.default.kbsrAddr ∧
    (start 0x3008 [(0x300D, 0xFE02)]).mem.readWord (pcRel (start 0x3008 [(0x300D, 0xFE02)]).pc (5 : BitVec 9)) ≠ Params.default.kbsrAddr := by
  decide
theorem witness_LdrLoadsBaseOffsetWord : opcodeOf .default 0x6681 = .ldr ∧
    baseOff (((start 0x3001 []).setReg .r2 0xFE00).reg .r2) (0x3F : BitVec 6) ≠ Params.default.kbsrAddr := by decide
theorem witness_LeaWritesAddress : opcodeOf .default 0xE405 = .lea := by decide
theorem witness_StStoresPcRelativeWord : opcodeOf .default 0x3207 = .st := by decide
theorem witness_StiStoresThroughPointer : opcodeOf .default 0xB005 = .sti ∧
    pcRel (start 0xFE00 []).pc (0x1FF : BitVec 9) ≠ Params.default.kbsrAddr := by
  decide
theorem witness_StrStoresBaseOffsetWord : opcodeOf .default 0x7682 = .str := by decide
theorem witness_GetcReadsOneByte : ({ State.reset with input := [0xFF, 0x00] } : State).input = 0xFF :: [0x00] := by decide
theorem witness_InPromptsAndEchoesOneByte : ({ State.reset with input := [0x7A] } : State).input = 0x7A :: [] := by decide
theorem witness_InputServicesHoldWithoutByte : State.reset.input = [] ∧
    (start 0x3000 [(0x3000, 0xF020)]).running = true ∧ (start 0x3000 [(0x3000, 0xF020)]).hostTurn.input = [] ∧
    waitsForInput (decode .default (start 0x3000 [(0x3000, 0xF020)]).hostTurn.fetch.1) = true ∧
    waitsForInput (decode .default (start 0x3000 [(0x3000, 0xF023)]).hostTurn.fetch.1) = true := by decide
theorem witness_OutWritesLowByte : opcodeOf .default 0xF021 = .trap ∧ (0xF021 : Word).extractLsb' 0 8 = 0x21#8 := by decide
theorem witness_StringServicesRunTheirLoop : (State.reset.input.length + 1) * 65536 ≤ 65536 := by decide

/-- The string of V54. -/
theorem witness_PutsWritesTheString :
    StringAt ((start 0x3001 [(0x4000, 0x0048), (0x4001, 0x0049)]).setReg .r0 0x4000)
      (((start 0x3001 [(0x4000, 0x0048), (0x4001, 0x0049)]).setReg .r0 0x4000).reg .r0) [0x0048, 0x0049] :=
  ⟨by decide, by decide, by decide, by decide, by decide, by decide, by decide, by decide⟩
/-- The string of V59. -/
theorem witness_PutspWritesThePackedString :
    StringAt ((start 0x3001 [(0x4000, 0x6548), (0x4001, 0x0079)]).setReg .r0 0x4000)
      (((start 0x3001 [(0x4000, 0x6548), (0x4001, 0x0079)]).setReg .r0 0x4000).reg .r0) [0x6548, 0x0079] :=
  ⟨by decide, by decide, by decide, by decide, by decide, by decide, by decide, by decide⟩
/-- The empty string, V55. -/
theorem witness_StringAt_empty : StringAt (start 0x3001 []) 0x4000 [] := ⟨by decide, by decide⟩

theorem witness_HaltWritesNoticeAndStops : opcodeOf .default 0xF025 = .trap ∧
    (0xF025 : Word).extractLsb' 0 8 = 0x25#8 := by decide
theorem witness_TrapVectorSelectsService : Config.serviceVectors.contains (0x1F : Byte) = false ∧
    Config.serviceVectors.contains (0x26 : Byte) = false ∧ Config.serviceVectors.contains (0x00 : Byte) = false ∧
    Config.serviceVectors.contains (0xFF : Byte) = false := by decide
/-- A vector that waits, with a byte pending; one that does not wait, with none; the clauses at HALT and beside it. -/
theorem witness_TrapLinksForEveryVector :
    (waitsForInput (decodeTrap 0x20) = true → ({ State.reset with input := [0x41] } : State).input ≠ []) ∧
    (waitsForInput (decodeTrap 0x21) = true → State.reset.input ≠ []) ∧ waitsForInput (decodeTrap 0x25) = false ∧
    waitsForInput (decodeTrap 0x23) = true ∧ (0x26 : Byte) ≠ 0x25 ∧ writesOutput (decodeTrap 0x20) = false ∧
    writesOutput (decodeTrap 0x26) = false ∧ readsMemory (decodeTrap 0x21) = false ∧
    (waitsForInput (decodeTrap 0x26) = false ∧ readsMemory (decodeTrap 0x26) = false) := by decide
theorem witness_UndefinedOpcodesAreNoOps : opcodeOf .default 0x8FFF = .rti ∧ opcodeOf .default 0xDFFF = .res := by decide
theorem witness_StepRunsDecodedInstruction : (start 0x3000 [(0x3000, 0x127F)]).running = true ∧
    decode .default (start 0x3000 [(0x3000, 0x127F)]).hostTurn.fetch.1 = .addImm .r1 .r1 0x1F ∧
    (start 0x3000 [(0x3000, 0x127F)]).pc ≠ Params.default.kbsrAddr ∧
    (start 0xFE00 []).pc = Params.default.kbsrAddr := by decide
theorem witness_RunningMachineAlwaysSteps : State.reset.running = true := by decide
theorem witness_RunBitClearedOnlyByHalt : State.reset.running = true ∧
    ((start 0x3000 [(0x3000, 0xF025)]).running = true ∧
      decode .default (start 0x3000 [(0x3000, 0xF025)]).hostTurn.fetch.1 = .trapHalt) ∧
    ({ State.reset with running := false } : State).running = false ∧
    stepGives (start 0x3000 [(0x3000, 0xF025)]) (fun t => t.running == false) = true ∧
    execGives (.lea .r0 0) { State.reset with running := false } (fun t => t.running == false) = true := by decide
theorem witness_ZeroWordStepsToNextAddress : State.reset.params.opcodeAt 0 = .br ∧ State.reset.running = true ∧
    State.reset.pc ≠ Params.default.kbsrAddr ∧
    State.reset.mem.readWord State.reset.pc = 0x0000 := by decide
theorem witness_OnlyNamedRegistersAreWritten : (Instr.jsr 2).wf = true ∧
    execGives (.jsr 2) State.reset (fun _ => true) = true ∧
    Reg.r0 ∉ writtenRegs (.jsr 2) := by decide
/-- Not a writer, a writer, and a held writer. -/
theorem witness_FlagsWrittenOnlyByTheTable : (Instr.jsr 2).wf = true ∧ flagSource (.jsr 2) = none ∧
    execGives (.jsr 2) State.reset (fun _ => true) = true ∧ flagSource (.lea .r3 2) = some .r3 ∧
    execGives (.lea .r3 2) State.reset (fun _ => true) = true ∧ flagSource .trapGetc = some .r0 ∧
    execGives .trapGetc State.reset (fun _ => true) = true := by decide
theorem witness_PcChangedOnlyByControlTransfer : (Instr.trap 0x26).wf = true ∧ transfersControl (.trap 0x26) = false ∧
    execGives (.trap 0x26) State.reset (fun _ => true) = true := by decide
/-- One that reads memory, here the keyboard-status word with a byte pending, and one that does not. -/
theorem witness_MemoryWrittenOnlyByStoresAndPoll : (Instr.ldr .r0 .r1 0).wf = true ∧ storesWord (.ldr .r0 .r1 0) = false ∧
    execGives (.ldr .r0 .r1 0) ({ State.reset with input := [0x61] }.setReg .r1 0xFE00) (fun _ => true) = true ∧
    readsMemory (.lea .r0 0) = false ∧ execGives (.lea .r0 0) State.reset (fun _ => true) = true := by decide
theorem witness_StreamsMoveOneWay : Instr.trapIn.wf = true ∧
    execGives .trapIn { State.reset with input := [0x61] } (fun _ => true) = true ∧ writesOutput .trapGetc = false ∧
    execGives .trapGetc { State.reset with input := [0x61] } (fun _ => true) = true := by decide
theorem witness_OutputIsNeverRead :
    stepGives ((start 0x3000 [(0x3000, 0xF021)]).setReg .r0 0x41) (fun _ => true) = true := by decide
theorem witness_StepKeepsMemoryCanonical : (start 0x3003 [(0x3003, 0x3207)]).Inv ∧
    stepGives (start 0x3003 [(0x3003, 0x3207)]) (fun _ => true) = true := ⟨⟨by decide, witness_Params_valid.1⟩, by decide⟩
/-- A run of one step from a loaded image. -/
theorem witness_EveryRunKeepsMemoryCanonical :
    Reaches (State.boot .default [[0x30, 0x00, 0x80, 0x00]] [] []) { State.boot .default [[0x30, 0x00, 0x80, 0x00]] [] [] with pc := 0x3001 } :=
  .next (.refl _) rfl
/-- The origin's word, the last address, the first word past the image, and a file of one byte. -/
theorem witness_ImageLoadStoresItsWords :
    ([0x30, 0x00, 0x12, 0x34] : List Byte)[2 * 1]? = some 0x12 ∧
    ([0x30, 0x00, 0x12, 0x34] : List Byte)[2 * 1 + 1]? = some 0x34 ∧
    ([0x30] : List Byte).length < 2 ∧
    imageWords [0xFF, 0xFE, 0x11, 0x11, 0x22, 0x22, 0x33, 0x33] = 0xFFFE :: [0x1111, 0x2222, 0x3333] ∧
    ([0x1111, 0x2222, 0x3333] : List Word)[(0xFFFE : Word).toNat - (0xFFFE : Word).toNat]? = some 0x1111 ∧
    ([0x1111, 0x2222, 0x3333] : List Word)[(0xFFFF : Word).toNat - (0xFFFE : Word).toNat]? = some 0x2222 ∧
    (0xFFFD : Word).toNat < (0xFFFE : Word).toNat ∧
    (0x3000 : Word).toNat + ([0x1234] : List Word).length ≤ (0x3001 : Word).toNat := by
  decide
theorem witness_ParametersNeverChange : execGives .trapPuts State.reset (fun _ => true) = true ∧
    stepGives State.reset (fun _ => true) = true := by decide
theorem witness_LaterImageWins : imageWords [0x30, 0x01, 0xCC, 0xCC] = 0x3001 :: [0xCCCC] ∧
    (0x3001 : Word).toNat ≤ (0x3001 : Word).toNat ∧
    ([0xCCCC] : List Word)[(0x3001 : Word).toNat - (0x3001 : Word).toNat]? = some 0xCCCC := by decide

end Sys2Proof.Tests
end

/-! Proofs for 10_state.md: the values at reset, the general registers as plain storage, and `setcc`. -/

namespace Sys2Proof.Machine

/-! ### The flag of a value (R29) -/

@[simp] theorem condOf_zero : condOf 0x0000 = .zero := rfl

theorem condOf_negative {v : Word} (hv : v ≠ 0x0000) (htop : v.getLsbD 15 = true) : condOf v = .negative := by
  rw [condOf, if_neg hv, if_pos htop]

theorem condOf_positive {v : Word} (hv : v ≠ 0x0000) (htop : v.getLsbD 15 = false) : condOf v = .positive := by
  rw [condOf, if_neg hv, htop, if_neg Bool.false_ne_true]

/-! ### The state after creation (R23, R32, R39) -/

@[simp] theorem State.resetWith_reg (p : Params) (r : Reg) : (State.resetWith p).reg r = 0x0000 := by
  cases r <;> rfl

@[simp] theorem Memory.readByte_nil (k : Nat) : Memory.readByte [] k = Config.unlisted := rfl

@[simp] theorem Memory.readWord_nil (a : Word) : Memory.readWord [] a = 0x0000 := by
  rw [Memory.readWord, Memory.readByte_nil, Memory.readByte_nil]
  decide

/-- Settles O9: every register and every word is 0x0000, so `setcc` of any register gives the ZERO already there; the
other values are those that `resetWith` writes. -/
theorem resetLeavesTheSpecsValues : Obligations.ResetLeavesTheSpecsValues := by
  intro p
  have setcc_cond (r : Reg) : ((State.resetWith p).setcc r).cond = (State.resetWith p).cond :=
    calc ((State.resetWith p).setcc r).cond
      _ = condOf 0x0000 := by rw [State.setcc_cond, State.resetWith_reg]
      _ = (State.resetWith p).cond := condOf_zero
  exact ⟨State.resetWith_reg p, rfl, rfl, setcc_cond, rfl, Memory.readWord_nil, rfl⟩

/-! ### What a register write and `setcc` leave unchanged (R21, R29) -/

section
variable (s : State) (r : Reg) (v : Word)

theorem State.setReg_sameRegsBut : SameRegsBut r s (s.setReg r v) := fun _ hne => s.setReg_reg_ne v hne

theorem State.setReg_sameControl : SameControl s (s.setReg r v) :=
  ⟨s.setReg_pc r v, s.setReg_running r v, s.setReg_params r v⟩

theorem State.setReg_sameMem : SameMem s (s.setReg r v) := fun k => congrArg (·.readByte k) (s.setReg_mem r v)

theorem State.setReg_sameStreams : SameStreams s (s.setReg r v) :=
  ⟨s.setReg_input r v, s.setReg_output r v, s.setReg_arrivals r v⟩

theorem State.setcc_sameRegs : SameRegs s (s.setcc r) := s.setcc_reg r

theorem State.setcc_sameControl : SameControl s (s.setcc r) := ⟨s.setcc_pc r, s.setcc_running r, s.setcc_params r⟩

theorem State.setcc_sameMem : SameMem s (s.setcc r) := fun k => congrArg (·.readByte k) (s.setcc_mem r)

theorem State.setcc_sameStreams : SameStreams s (s.setcc r) :=
  ⟨s.setcc_input r, s.setcc_output r, s.setcc_arrivals r⟩

end

/-- Settles O10: read after write, then the frame of a register write. -/
theorem registersArePlainStorage : Obligations.RegistersArePlainStorage := by
  intro s r v
  exact ⟨s.setReg_reg_self r v, s.setReg_sameRegsBut r v, s.setReg_cond r v, s.setReg_sameControl r v,
    s.setReg_sameMem r v, s.setReg_sameStreams r v⟩

/-- Settles O11: `setcc` stores `condOf` of the register, by `condOf`'s three cases; then its frame, and `writeResult`
is the register write followed by `setcc` by definition. -/
theorem setccFollowsTheValue : Obligations.SetccFollowsTheValue := by
  intro s r
  rw [State.setcc_cond]
  refine ⟨?zero, condOf_negative, condOf_positive, s.setcc_sameRegs r, s.setcc_sameControl r, s.setcc_sameMem r,
    s.setcc_sameStreams r, fun _ => rfl⟩
  case zero =>
    intro hzero
    rw [hzero, condOf_zero]

end Sys2Proof.Machine

/-! Proofs for 20_memory.md: a read away from the keyboard-status word, and the addresses the machine forms as exact sums
modulo 65536. -/

namespace Sys2Proof.Machine

/-! ### A read that polls nothing (R52) -/

theorem State.memRead_ne {s : State} {a : Word} (h : a ≠ s.params.kbsrAddr) : s.memRead a = (s.mem.readWord a, s) := by
  rw [State.memRead, State.busAction_ne s h]

theorem kbdrAddr_ne_kbsrAddr {p : Params} (hp : p.Valid) : p.kbdrAddr ≠ p.kbsrAddr := by
  obtain ⟨_, _, _, _, _, _, _, _, _, hne⟩ := hp
  exact hne.symm

/-- Settles O14: the bus acts at KBSR_ADDR only, and R7's constraints keep KBDR_ADDR apart from it. -/
theorem ordinaryReadHasNoSideEffect : Obligations.OrdinaryReadHasNoSideEffect :=
  ⟨fun _ _ hne => State.memRead_ne hne, fun _ hp => State.memRead_ne (kbdrAddr_ne_kbsrAddr hp)⟩

/-! ### Sums modulo 65536 (R54) -/

theorem wraps_ofInt (x : Int) : Wraps (BitVec.ofInt 16 x) x := by
  rw [Wraps, BitVec.toNat_ofInt]
  omega

theorem wraps_add_one (a : Word) : Wraps (a + 1) (a.toNat + 1) := by
  rw [Wraps, BitVec.toNat_add]
  rfl

/-- The address adder, for every width of the offset field. -/
theorem wraps_add_sext {n : Nat} (hpos : 0 < n) (hle : n ≤ 16) (base : Word) (off : BitVec n) :
    Wraps (base + sext off) (base.toNat + off.toInt) := by
  have hsum : base + sext off = BitVec.ofInt 16 (base.toNat + off.toInt) :=
    calc base + sext off
      _ = base + BitVec.ofInt 16 off.toInt := by rw [sext_eq_signExtend hpos hle, BitVec.signExtend]
      _ = BitVec.ofInt 16 (base.toNat + off.toInt) := by
        rw [BitVec.ofInt_add, BitVec.ofInt_natCast, BitVec.ofNat_toNat, BitVec.setWidth_eq]
  rw [hsum]
  exact wraps_ofInt _

/-! ### The bound of the string loop falls by one with each read (R189) -/

/-- A status read that gives a word other than zero had a byte to take (R51). -/
theorem input_ne_nil_of_memRead_kbsr {s : State} (hword : (s.memRead s.params.kbsrAddr).1 ≠ 0) : s.input ≠ [] := by
  intro hempty
  rw [State.memRead_word, State.busAction_kbsr, State.kbdPoll_mem_empty hempty, Memory.readWord_write_self] at hword
  exact hword rfl

/-- Away from `k` the next address is one nearer to it. -/
theorem toNat_sub_of_ne {k a : Word} (hne : a ≠ k) : (k - a).toNat = (k - (a + 1)).toNat + 1 := by
  bv_omega

theorem toNat_sub_add_one_self (k : Word) : (k - (k + 1)).toNat + 1 = Config.memWords := by
  rw [Config.memWords]
  bv_omega

/-- The bound counts the reads left: away from KBSR_ADDR the read brings the address one nearer to it; at KBSR_ADDR it
takes a byte of `In`, which pays for the way round the memory. -/
theorem scanBound_eq_succ {a : Word} {s : State} (hword : (s.memRead a).1 ≠ 0) (bs : List Byte) :
    scanBound a s = scanBound (a + 1) ((s.memRead a).2.emit bs) + 1 := by
  rw [State.memRead_state, scanBound, scanBound, State.emit_input, State.emit_params, State.busAction_params]
  by_cases hk : a = s.params.kbsrAddr
  · subst hk
    obtain ⟨b, rest, hin⟩ := List.exists_cons_of_ne_nil (input_ne_nil_of_memRead_kbsr hword)
    have htour := toNat_sub_add_one_self s.params.kbsrAddr
    rw [State.busAction_kbsr, State.kbdPoll_input, hin, List.tail_cons, List.length_cons, Nat.succ_mul,
      BitVec.sub_self, BitVec.toNat_zero]
    omega
  · rw [State.busAction_ne s hk, toNat_sub_of_ne hk, ← Nat.add_assoc]

/-- The loop's own equation at a word that does not end the string (R188, R195). -/
theorem scanString_of_ne_zero {bytes : Word → List Byte} {a : Word} {s : State} (hword : (s.memRead a).1 ≠ 0) :
    scanString bytes a s = scanString bytes (a + 1) ((s.memRead a).2.emit (bytes (s.memRead a).1)) := by
  rw [scanString, scanBound_eq_succ hword (bytes (s.memRead a).1), scanLoop_succ, if_neg hword, scanString]

/-- Settles O8: the address adder for the three widths of offset, `pc + 1` of the fetch, and the string loop's own
equation at a word that does not end it. -/
theorem addressesWrapModulo65536 : Obligations.AddressesWrapModulo65536 := by
  refine ⟨wraps_add_sext (by decide) (by decide), wraps_add_sext (by decide) (by decide),
    wraps_add_sext (by decide) (by decide), ?fetch, ?string⟩
  case fetch =>
    intro s
    rw [State.fetch_pc]
    exact wraps_add_one s.pc
  case string => exact fun _ a _ hword => ⟨a + 1, wraps_add_one a, scanString_of_ne_zero hword⟩

end Sys2Proof.Machine

/-! Proofs for 30_encoding.md: the bits and the signed value of a sign-extended field (R82), read off from `sext` as
`BitVec.signExtend`. -/

namespace Sys2Proof.Machine

section
variable {n : Nat} (hpos : 1 ≤ n) (hle : n ≤ 16) (v : BitVec n)
include hpos hle

theorem getLsbD_sext_of_lt {i : Nat} (hi : i < n) : (sext v).getLsbD i = v.getLsbD i := by
  have hword : i < 16 := Nat.lt_of_lt_of_le hi hle
  rw [sext_eq_signExtend hpos hle, BitVec.getLsbD_signExtend, if_pos hi, decide_eq_true hword, Bool.true_and]

theorem getLsbD_sext_of_ge {i : Nat} (hi : n ≤ i) (hword : i < 16) : (sext v).getLsbD i = v.getLsbD (n - 1) := by
  rw [sext_eq_signExtend hpos hle, BitVec.getLsbD_signExtend, if_neg (Nat.not_lt.mpr hi), decide_eq_true hword,
    Bool.true_and, BitVec.msb_eq_getLsbD_last]

theorem toInt_sext : (sext v).toInt = v.toInt := by
  rw [sext_eq_signExtend hpos hle, BitVec.toInt_signExtend_of_le hle]

end

/-- Settles O7: the bits below the field's width, the bits from it up, and the signed value, for every width 1 to 16. -/
theorem signExtensionFillsHigherBits : Obligations.SignExtensionFillsHigherBits := by
  intro n v hpos hle
  exact ⟨fun _ hi => getLsbD_sext_of_lt hpos hle v hi, fun _ hi hword => getLsbD_sext_of_ge hpos hle v hi hword,
    toInt_sext hpos hle v⟩

end Sys2Proof.Machine

/-! Proofs for 40_alu.md: the decoder's rows for ADD, AND and NOT, what the five forms answer as one register write, and
that write's frame. -/

namespace Sys2Proof

/-! ### The decoder at the opcodes of the ALU (R81, R86, R87) -/

section
variable {p : Params} {w : Word}

theorem decode_of_add (hop : opcodeOf p w = .add) : decode p w =
    if w.getLsbD 5 = p.modeImm then .addImm (fieldDr w) (fieldBase w) (fieldImm5 w)
    else .addReg (fieldDr w) (fieldBase w) (fieldSr2 w) := by
  rw [decode, hop]

theorem decode_of_and (hop : opcodeOf p w = .and) : decode p w =
    if w.getLsbD 5 = p.modeImm then .andImm (fieldDr w) (fieldBase w) (fieldImm5 w)
    else .andReg (fieldDr w) (fieldBase w) (fieldSr2 w) := by
  rw [decode, hop]

theorem decode_of_not (hop : opcodeOf p w = .not) : decode p w = .not (fieldDr w) (fieldBase w) := by
  rw [decode, hop]

end

end Sys2Proof

namespace Sys2Proof.Machine

/-! ### What each form answers: DR and the flags written with one value (R111 to R115) -/

section
variable (dr sr1 sr2 : Reg) (imm : BitVec 5) (s : State)

@[simp] theorem exec_addReg : exec (.addReg dr sr1 sr2) s = .next (s.writeResult dr (s.reg sr1 + s.reg sr2)) := rfl

@[simp] theorem exec_addImm : exec (.addImm dr sr1 imm) s = .next (s.writeResult dr (s.reg sr1 + sext imm)) := rfl

@[simp] theorem exec_andReg : exec (.andReg dr sr1 sr2) s = .next (s.writeResult dr (s.reg sr1 &&& s.reg sr2)) := rfl

@[simp] theorem exec_andImm : exec (.andImm dr sr1 imm) s = .next (s.writeResult dr (s.reg sr1 &&& sext imm)) := rfl

@[simp] theorem exec_not : exec (.not dr sr1) s = .next (s.writeResult dr (~~~(s.reg sr1))) := rfl

end

/-- The frame of every instruction that ends in a result write (R29, R30). -/
theorem State.writeResult_writesOnlyReg (s : State) (dr : Reg) (v : Word) : WritesOnlyReg dr s (s.writeResult dr v) := by
  have hcond : (s.writeResult dr v).cond = condOf ((s.writeResult dr v).reg dr) := by
    rw [State.writeResult_cond, State.writeResult_reg_self]
  have hregs : SameRegsBut dr s (s.writeResult dr v) := fun _ hne => s.writeResult_reg_ne v hne
  have hmem : SameMem s (s.writeResult dr v) := fun k => congrArg (·.readByte k) (s.writeResult_mem dr v)
  exact ⟨hcond, hregs, hmem,
    ⟨s.writeResult_pc dr v, s.writeResult_running dr v, s.writeResult_params dr v⟩,
    ⟨s.writeResult_input dr v, s.writeResult_output dr v, s.writeResult_arrivals dr v⟩⟩

/-! ### The immediate as a number and as a mask (R82, R112, R114) -/

/-- Every bit of a sign-extended field, the bits above the field repeating its top bit. -/
theorem getLsbD_sext_eq_min {n : Nat} (hpos : 1 ≤ n) (hle : n ≤ 16) (v : BitVec n) {k : Nat} (hk : k < 16) :
    (sext v).getLsbD k = v.getLsbD (min k (n - 1)) := by
  by_cases hlt : k < n
  · rw [getLsbD_sext_of_lt hpos hle v hlt, Nat.min_eq_left (by omega)]
  · have hge : n ≤ k := by omega
    rw [getLsbD_sext_of_ge hpos hle v hge hk, Nat.min_eq_right (by omega)]

/-- The range of imm5. -/
theorem imm5_toInt_range (imm : BitVec 5) : -16 ≤ imm.toInt ∧ imm.toInt ≤ 15 :=
  ⟨imm.le_toInt, Int.le_of_lt_add_one imm.toInt_lt⟩

/-! ### The statements -/

/-- Settles O19: `decode_of_add` where the mode bit selects the immediate form, the range of imm5, and the sum as the
address adder's `wraps_add_sext` gives it at width 5. -/
theorem addImmediateWritesSum : Obligations.AddImmediateWritesSum := by
  refine ⟨?decode, imm5_toInt_range, ?exec⟩
  case decode => exact fun _ _ hop hmode => (decode_of_add hop).trans (if_pos hmode)
  case exec =>
    intro dr sr1 imm s
    refine ⟨_, exec_addImm dr sr1 imm s, ?_, s.writeResult_writesOnlyReg dr _⟩
    rw [State.writeResult_reg_self]
    exact wraps_add_sext (by decide) (by decide) (s.reg sr1) imm

/-- Settles O21: `decode_of_and` where the mode bit selects the immediate form, and the mask bit by bit. -/
theorem andImmediateWritesAnd : Obligations.AndImmediateWritesAnd := by
  refine ⟨?decode, ?exec⟩
  case decode => exact fun _ _ hop hmode => (decode_of_and hop).trans (if_pos hmode)
  case exec =>
    intro dr sr1 imm s
    refine ⟨_, exec_andImm dr sr1 imm s, ?_, s.writeResult_writesOnlyReg dr _⟩
    intro k hk
    rw [State.writeResult_reg_self, BitVec.getLsbD_and, getLsbD_sext_eq_min (by decide) (by decide) imm hk]

/-- Settles O18: `decode_of_add` where the mode bit does not select the immediate form, and the sum of two words. -/
theorem addRegisterWritesSum : Obligations.AddRegisterWritesSum := by
  refine ⟨?decode, ?exec⟩
  case decode => exact fun _ _ hop hmode => (decode_of_add hop).trans (if_neg hmode)
  case exec =>
    intro dr sr1 sr2 s
    refine ⟨_, exec_addReg dr sr1 sr2 s, ?_, s.writeResult_writesOnlyReg dr _⟩
    rw [State.writeResult_reg_self]
    exact BitVec.toNat_add (s.reg sr1) (s.reg sr2)

/-- Settles O20: `decode_of_and` where the mode bit does not select the immediate form, and the bits of the and. -/
theorem andRegisterWritesAnd : Obligations.AndRegisterWritesAnd := by
  refine ⟨?decode, ?exec⟩
  case decode => exact fun _ _ hop hmode => (decode_of_and hop).trans (if_neg hmode)
  case exec =>
    intro dr sr1 sr2 s
    refine ⟨_, exec_andReg dr sr1 sr2 s, ?_, s.writeResult_writesOnlyReg dr _⟩
    intro k _
    rw [State.writeResult_reg_self, BitVec.getLsbD_and]

/-- Settles O22: `decode_of_not`, and the complement of a word as a subtraction from 0xFFFF. -/
theorem notWritesComplement : Obligations.NotWritesComplement := by
  refine ⟨?decode, ?exec⟩
  case decode => exact fun _ _ hop => decode_of_not hop
  case exec =>
    intro dr sr s
    refine ⟨_, exec_not dr sr s, ?_, s.writeResult_writesOnlyReg dr _⟩
    rw [State.writeResult_reg_self]
    exact BitVec.toNat_not

end Sys2Proof.Machine

/-! Proofs for 41_control.md: the decoder's rows for BR, JMP and JSR, what each of the three answers, and the frames of
moving `pc` with and without the link. -/

namespace Sys2Proof

/-! ### The decoder at the opcodes of control transfer (R81, R86, R87) -/

section
variable {p : Params} {w : Word}

theorem decode_of_br (hop : opcodeOf p w = .br) : decode p w = .br (fieldMask w) (fieldOff9 w) := by
  rw [decode, hop]

theorem decode_of_jmp (hop : opcodeOf p w = .jmp) : decode p w = .jmp (fieldBase w) := by
  rw [decode, hop]

theorem decode_of_jsr (hop : opcodeOf p w = .jsr) :
    decode p w = if w.getLsbD 11 then .jsr (fieldOff11 w) else .jsrr (fieldBase w) := by
  rw [decode, hop]

end

end Sys2Proof

namespace Sys2Proof.Machine

/-! ### BR's test (R28, R130) -/

theorem condHolds_iff {p : Params} {mask : BitVec 3} {c : Cond} :
    condHolds p mask c = true ↔ mask &&& condBits p c ≠ 0 :=
  bne_iff_ne

theorem oneHot_condBits {p : Params} (hp : p.Valid) (c : Cond) : OneHot (condBits p c) := by
  obtain ⟨_, _, _, hpositive, hzero, hnegative, _⟩ := hp
  cases c with
  | positive => exact hpositive
  | zero => exact hzero
  | negative => exact hnegative

theorem fullMask_and_ne_zero {v : BitVec 3} (hv : OneHot v) : 0b111 &&& v ≠ 0 := by
  obtain rfl | rfl | rfl := hv <;> decide

/-! ### What each form answers (R130, R132, R134) -/

section
variable {mask : BitVec 3} {s : State} (off : BitVec 9)

theorem exec_br_of_ne_zero (htaken : mask &&& condBits s.params s.cond ≠ 0) :
    exec (.br mask off) s = .next (s.setPc (pcRel s.pc off)) :=
  congrArg Host.Outcome.next (if_pos (condHolds_iff.mpr htaken))

theorem exec_br_of_eq_zero (hnot : mask &&& condBits s.params s.cond = 0) :
    exec (.br mask off) s = .next s :=
  congrArg Host.Outcome.next (if_neg fun hholds => condHolds_iff.mp hholds hnot)

end

@[simp] theorem exec_jmp (s : State) (base : Reg) : exec (.jmp base) s = .next (s.setPc (s.reg base)) := rfl

@[simp] theorem exec_jsr (s : State) (off : BitVec 11) : exec (.jsr off) s = .next (s.link.setPc (pcRel s.pc off)) := rfl

/-! ### The frames of control transfer (R25, R134) -/

theorem writesOnlyPc_refl (s : State) : WritesOnlyPc s.pc s s :=
  ⟨rfl, fun _ => rfl, rfl, rfl, rfl, fun _ => rfl, rfl, rfl, rfl⟩

theorem State.setPc_writesOnlyPc (s : State) (target : Word) : WritesOnlyPc target s (s.setPc target) := by
  have hmem : SameMem s (s.setPc target) := fun k => congrArg (·.readByte k) (s.setPc_mem target)
  exact ⟨s.setPc_pc target, s.setPc_reg target, s.setPc_cond target, s.setPc_running target, s.setPc_params target, hmem,
    ⟨s.setPc_input target, s.setPc_output target, s.setPc_arrivals target⟩⟩

/-- A jump after the link, to any target. -/
theorem State.link_setPc_linksAndJumps (s : State) (target : Word) :
    LinksAndJumps target s (s.link.setPc target) := by
  obtain ⟨hpc, hregs, hcond, hrunning, hparams, hmem, hstreams⟩ := s.link.setPc_writesOnlyPc target
  have hothers : SameRegsBut .r7 s (s.link.setPc target) := fun r hne => (hregs r).trans (s.link_reg_ne hne)
  exact ⟨hpc, (hregs .r7).trans s.link_reg_r7, hothers, hcond, hrunning, hparams, hmem, hstreams⟩

/-! ### The statements -/

/-- Settles O23: `decode_of_br`, then BR taken (the address adder at width 9) and not taken; a valid flag pattern has a
bit that the full mask meets. -/
theorem brBranchesOnMatchingFlag : Obligations.BrBranchesOnMatchingFlag := by
  have target_wraps (off : BitVec 9) (s : State) : Wraps (pcRel s.pc off) (s.pc.toNat + off.toInt) :=
    wraps_add_sext (by decide) (by decide) s.pc off
  refine ⟨fun _ _ hop => decode_of_br hop, ?exec, ?always⟩
  case exec =>
    intro mask off s
    by_cases hbits : mask &&& condBits s.params s.cond = 0
    · exact ⟨s, exec_br_of_eq_zero off hbits, fun htaken => absurd hbits htaken, fun _ => rfl, writesOnlyPc_refl s⟩
    · exact ⟨_, exec_br_of_ne_zero off hbits, fun _ => target_wraps off s, fun hnot => absurd hnot hbits,
        s.setPc_writesOnlyPc _⟩
  case always =>
    intro off s hp
    have htaken : 0b111 &&& condBits s.params s.cond ≠ 0 := fullMask_and_ne_zero (oneHot_condBits hp s.cond)
    exact ⟨_, exec_br_of_ne_zero off htaken, target_wraps off s⟩

/-- Settles O25: `decode_of_jsr` where bit 11 selects the PC-relative form, the address adder at width 11, and the frame
of a jump after the link. -/
theorem jsrLinksAndBranches : Obligations.JsrLinksAndBranches := by
  refine ⟨fun _ _ hop hform => (decode_of_jsr hop).trans (if_pos hform), ?exec⟩
  case exec =>
    intro off s
    exact ⟨_, exec_jsr s off, wraps_add_sext (by decide) (by decide) s.pc off, s.link_setPc_linksAndJumps _⟩

/-- Settles O24: `decode_of_jmp`, and the frame of moving `pc` to the base register's value. -/
theorem jmpGoesToRegister : Obligations.JmpGoesToRegister :=
  ⟨fun _ _ hop => decode_of_jmp hop, fun base s => ⟨_, exec_jmp s base, s.setPc_writesOnlyPc (s.reg base)⟩⟩

end Sys2Proof.Machine

/-! Proofs for 42_load_store.md: the decoder's rows for the loads, LEA and the stores, what each of the seven answers, and
the frames of a load through the bus and of a plain store. -/

namespace Sys2Proof

/-! ### The decoder at the opcodes of loads and stores (R81, R86, R87) -/

section
variable {p : Params} {w : Word}

theorem decode_of_ld (hop : opcodeOf p w = .ld) : decode p w = .ld (fieldDr w) (fieldOff9 w) := by
  rw [decode, hop]

theorem decode_of_ldi (hop : opcodeOf p w = .ldi) : decode p w = .ldi (fieldDr w) (fieldOff9 w) := by
  rw [decode, hop]

theorem decode_of_ldr (hop : opcodeOf p w = .ldr) : decode p w = .ldr (fieldDr w) (fieldBase w) (fieldOff6 w) := by
  rw [decode, hop]

theorem decode_of_lea (hop : opcodeOf p w = .lea) : decode p w = .lea (fieldDr w) (fieldOff9 w) := by
  rw [decode, hop]

theorem decode_of_st (hop : opcodeOf p w = .st) : decode p w = .st (fieldDr w) (fieldOff9 w) := by
  rw [decode, hop]

theorem decode_of_sti (hop : opcodeOf p w = .sti) : decode p w = .sti (fieldDr w) (fieldOff9 w) := by
  rw [decode, hop]

theorem decode_of_str (hop : opcodeOf p w = .str) : decode p w = .str (fieldDr w) (fieldBase w) (fieldOff6 w) := by
  rw [decode, hop]

end

end Sys2Proof

namespace Sys2Proof.Machine

/-! ### What each form answers: one load, one result write or one store (R151 to R157) -/

section
variable (r base : Reg) (off : BitVec 9) (off6 : BitVec 6) (s : State)

@[simp] theorem exec_ld : exec (.ld r off) s = .next (s.load r (pcRel s.pc off)) := rfl

@[simp] theorem exec_ldi : exec (.ldi r off) s =
    .next ((s.memRead (pcRel s.pc off)).2.load r (s.memRead (pcRel s.pc off)).1) := rfl

@[simp] theorem exec_ldr : exec (.ldr r base off6) s = .next (s.load r (baseOff (s.reg base) off6)) := rfl

@[simp] theorem exec_lea : exec (.lea r off) s = .next (s.writeResult r (pcRel s.pc off)) := rfl

@[simp] theorem exec_st : exec (.st r off) s = .next (s.memWrite (pcRel s.pc off) (s.reg r)) := rfl

@[simp] theorem exec_sti : exec (.sti r off) s =
    .next ((s.memRead (pcRel s.pc off)).2.memWrite (s.memRead (pcRel s.pc off)).1 (s.reg r)) := rfl

@[simp] theorem exec_str : exec (.str r base off6) s = .next (s.memWrite (baseOff (s.reg base) off6) (s.reg r)) := rfl

end

/-! ### The frames of a load and of a store (R53, R150) -/

/-- The frame of a load starts from the state that the bus read leaves. -/
theorem State.load_writesOnlyReg (s : State) (dr : Reg) (a : Word) :
    WritesOnlyReg dr (s.memRead a).2 (s.load dr a) :=
  (s.memRead a).2.writeResult_writesOnlyReg dr (s.memRead a).1

/-- Away from KBSR_ADDR the bus read leaves the state as it was, so a load is one result write. -/
theorem State.load_of_ne {s : State} {a : Word} (dr : Reg) (h : a ≠ s.params.kbsrAddr) :
    s.load dr a = s.writeResult dr (s.mem.readWord a) := by
  rw [State.load, State.memRead_ne h]

theorem State.load_frame_of_ne {s : State} {a : Word} (dr : Reg) (h : a ≠ s.params.kbsrAddr) :
    (s.load dr a).reg dr = s.mem.readWord a ∧ WritesOnlyReg dr s (s.load dr a) := by
  rw [State.load_of_ne dr h]
  exact ⟨s.writeResult_reg_self dr _, s.writeResult_writesOnlyReg dr _⟩

/-- A store at any address, the device words included (R53). -/
theorem State.memWrite_writesOnlyWord (s : State) (a v : Word) : WritesOnlyWord a v s (s.memWrite a v) := by
  have hword : (s.memWrite a v).mem.readWord a = v := s.mem.readWord_write_self a v
  have hmem : SameMemBut a s (s.memWrite a v) := fun _ hhigh hlow => s.mem.readByte_writeWord_ne a v hhigh hlow
  exact ⟨hword, hmem, s.memWrite_reg a v, s.memWrite_cond a v,
    ⟨s.memWrite_pc a v, s.memWrite_running a v, s.memWrite_params a v⟩,
    ⟨s.memWrite_input a v, s.memWrite_output a v, s.memWrite_arrivals a v⟩⟩

/-! ### The statements -/

/-- Settles O30: `decode_of_lea`, the address adder at width 9, and the frame of a result write, which reads nothing. -/
theorem leaWritesAddress : Obligations.LeaWritesAddress := by
  refine ⟨fun _ _ hop => decode_of_lea hop, ?exec⟩
  case exec =>
    intro dr off s
    refine ⟨_, exec_lea dr off s, ?_, s.writeResult_writesOnlyReg dr _⟩
    rw [State.writeResult_reg_self]
    exact wraps_add_sext (by decide) (by decide) s.pc off

/-- Settles O27: `decode_of_ld`, and one load at the PC-relative address. -/
theorem ldLoadsPcRelativeWord : Obligations.LdLoadsPcRelativeWord := by
  refine ⟨fun _ _ hop => decode_of_ld hop, ?exec⟩
  case exec =>
    intro dr off s
    exact ⟨_, exec_ld dr off s, s.load_reg_self dr _, s.load_writesOnlyReg dr _, State.load_frame_of_ne dr⟩

/-- Settles O28: `decode_of_ldi`, and one load at the pointer from the state that the pointer's read leaves; away from
KBSR_ADDR that read polls nothing. -/
theorem ldiLoadsThroughPointer : Obligations.LdiLoadsThroughPointer := by
  refine ⟨fun _ _ hop => decode_of_ldi hop, ?exec⟩
  case exec =>
    intro dr off s
    refine ⟨_, exec_ldi dr off s, State.load_reg_self _ dr _, State.load_writesOnlyReg _ dr _, ?plain⟩
    case plain =>
      intro hptr hword
      rw [State.memRead_ne hptr]
      exact State.load_frame_of_ne dr hword

/-- Settles O29: `decode_of_ldr`, and one load at the address formed from the old base. -/
theorem ldrLoadsBaseOffsetWord : Obligations.LdrLoadsBaseOffsetWord := by
  refine ⟨fun _ _ hop => decode_of_ldr hop, ?exec⟩
  case exec =>
    intro dr base off s
    exact ⟨_, exec_ldr dr base off s, s.load_reg_self dr _, s.load_writesOnlyReg dr _, State.load_frame_of_ne dr⟩

/-- Settles O31: `decode_of_st`, and one store at the PC-relative address. -/
theorem stStoresPcRelativeWord : Obligations.StStoresPcRelativeWord :=
  ⟨fun _ _ hop => decode_of_st hop, fun sr off s => ⟨_, exec_st sr off s, s.memWrite_writesOnlyWord _ _⟩⟩

/-- Settles O32: `decode_of_sti`, and one store at the pointer into the state that the pointer's read leaves; away from
KBSR_ADDR that read polls nothing. -/
theorem stiStoresThroughPointer : Obligations.StiStoresThroughPointer := by
  refine ⟨fun _ _ hop => decode_of_sti hop, ?exec⟩
  case exec =>
    intro sr off s
    refine ⟨_, exec_sti sr off s, State.memWrite_writesOnlyWord _ _ _, ?plain⟩
    case plain =>
      intro hptr
      rw [State.memRead_ne hptr]
      exact s.memWrite_writesOnlyWord _ _

/-- Settles O33: `decode_of_str`, and one store at base + offset. -/
theorem strStoresBaseOffsetWord : Obligations.StrStoresBaseOffsetWord :=
  ⟨fun _ _ hop => decode_of_str hop,
    fun sr base off s => ⟨_, exec_str sr base off s, s.memWrite_writesOnlyWord _ _⟩⟩

end Sys2Proof.Machine

/-! Proofs for 43_trap.md: the decoder's row for TRAP, what OUT answers, and the frame of writing bytes after the link. -/

namespace Sys2Proof

/-! ### The decoder at the opcode of TRAP (R87, R90, R181) -/

theorem decode_of_trap {p : Params} {w : Word} (hop : opcodeOf p w = .trap) :
    decode p w = decodeTrap (fieldVect w) := by
  rw [decode, hop]

@[simp] theorem decodeTrap_out : decodeTrap 0x21 = .trapOut := rfl

end Sys2Proof

namespace Sys2Proof.Machine

/-! ### What OUT answers, and the frame of writing bytes after the link (R180, R186) -/

/-- OUT reads R0 after the link, which leaves it as it was. -/
@[simp] theorem exec_trapOut (s : State) : exec .trapOut s = .next (s.link.emit [lowByte (s.reg .r0)]) :=
  congrArg (fun v => Host.Outcome.next (s.link.emit [lowByte v])) s.link_reg_r0

theorem State.link_emit_linksAndEmits (s : State) (bs : List Byte) : LinksAndEmits bs s (s.link.emit bs) := by
  have hlink : (s.link.emit bs).reg .r7 = s.pc := (s.link.emit_reg bs .r7).trans s.link_reg_r7
  have hout : (s.link.emit bs).output = s.output ++ bs := s.link.emit_output bs
  have hregs : SameRegsBut .r7 s (s.link.emit bs) := fun r hne => (s.link.emit_reg bs r).trans (s.link_reg_ne hne)
  have hcontrol : SameControl s (s.link.emit bs) :=
    ⟨s.link.emit_pc bs, s.link.emit_running bs, s.link.emit_params bs⟩
  have hmem : SameMem s (s.link.emit bs) := fun k => congrArg (·.readByte k) (s.link.emit_mem bs)
  exact ⟨hlink, hout, hregs, s.link.emit_cond bs, hcontrol, hmem, s.link.emit_input bs, s.link.emit_arrivals bs⟩

/-! ### The statement -/

/-- Settles O37: `decode_of_trap` at OUT's vector, and the frame of writing one byte after the link. -/
theorem outWritesLowByte : Obligations.OutWritesLowByte := by
  refine ⟨?decode, ?exec⟩
  case decode =>
    intro p w hop hvect
    calc decode p w
      _ = decodeTrap (fieldVect w) := decode_of_trap hop
      _ = decodeTrap 0x21 := congrArg decodeTrap hvect
      _ = .trapOut := decodeTrap_out
  case exec => exact fun s => ⟨_, exec_trapOut s, s.link_emit_linksAndEmits _⟩

end Sys2Proof.Machine

/-! Proofs for 70_reset_and_hazards.md: where the words of an image lie after it is loaded, images loaded one after
another, and the program counter before the first step. -/

namespace Sys2Proof.Machine

/-! ### Storing the words of an image (R254) -/

/-- Up to and with the last address one word is stored and the rest follow it (R254). -/
theorem storeWords_cons {a : Nat} (h : a < Config.memWords) (w : Word) (ws : List Word) (m : Memory) :
    storeWords a (w :: ws) m = storeWords (a + 1) ws (m.writeWord (BitVec.ofNat 16 a) w) := if_pos h

/-- Past the last address nothing is stored: there is no wrap (D17). -/
theorem storeWords_of_le {a : Nat} (h : Config.memWords ≤ a) (ws : List Word) (m : Memory) :
    storeWords a ws m = m := by
  cases ws with
  | nil => rfl
  | cons w ws => exact if_neg (Nat.not_lt.mpr h)

/-- Storing from `a` on leaves every word below `a`. -/
theorem readWord_storeWords_of_lt {b : Word} (ws : List Word) :
    ∀ {a : Nat} (m : Memory), b.toNat < a → (storeWords a ws m).readWord b = m.readWord b := by
  induction ws with
  | nil => exact fun _ _ => rfl
  | cons w ws ih =>
    intro a m hb
    by_cases ha : a < Config.memWords
    · have hself : (BitVec.ofNat 16 a).toNat = a := (BitVec.toNat_ofNat a 16).trans (Nat.mod_eq_of_lt ha)
      have hne : b ≠ BitVec.ofNat 16 a := fun heq => hb.ne ((congrArg BitVec.toNat heq).trans hself)
      rw [storeWords_cons ha, ih _ (Nat.lt_succ_of_lt hb), Memory.readWord_write_ne m w hne]
    · rw [storeWords_of_le (Nat.not_lt.mp ha)]

/-- The word stored for an address is the one read there: the words after it go above it. -/
theorem readWord_storeWords {b w : Word} (ws : List Word) :
    ∀ {a : Nat} (m : Memory), a ≤ b.toNat → ws[b.toNat - a]? = some w → (storeWords a ws m).readWord b = w := by
  induction ws with
  | nil => intro a m _ hw; simp at hw
  | cons v ws ih =>
    intro a m hab hw
    rw [storeWords_cons (Nat.lt_of_le_of_lt hab b.isLt)]
    obtain rfl | hlt := hab.eq_or_lt
    · have hvw : v = w := by simpa using hw
      rw [readWord_storeWords_of_lt ws _ (Nat.lt_succ_self _), BitVec.ofNat_toNat, BitVec.setWidth_eq,
        Memory.readWord_write_self, hvw]
    · have hpos : b.toNat - a = b.toNat - (a + 1) + 1 := by omega
      rw [hpos, List.getElem?_cons_succ] at hw
      exact ih _ hlt hw

/-! ### Loading one image and several (R254, R255, R258) -/

theorem State.loadImage_mem {file : List Byte} {origin : Word} {ws : List Word} (h : imageWords file = origin :: ws)
    (s : State) : (s.loadImage file).mem = storeWords origin.toNat ws s.mem := by
  rw [State.loadImage, h]

@[simp] theorem State.loadImage_pc (s : State) (file : List Byte) : (s.loadImage file).pc = s.pc := by
  rw [State.loadImage_eq]

theorem State.loadImages_append_singleton (s : State) (files : List (List Byte)) (file : List Byte) :
    s.loadImages (files ++ [file]) = (s.loadImages files).loadImage file := List.foldl_concat ..

@[simp] theorem State.loadImages_pc (files : List (List Byte)) : ∀ s : State, (s.loadImages files).pc = s.pc := by
  induction files with
  | nil => exact fun _ => rfl
  | cons file files ih => exact fun s => (ih (s.loadImage file)).trans (s.loadImage_pc file)

/-! ### The statement -/

/-- Settles O59: the last image is loaded into what the others left, so each word it covers is the one it stores there
(up to and with 0xFFFF, D17); no load moves `pc` from its reset value. -/
theorem laterImageWins : Obligations.LaterImageWins := by
  refine ⟨?word, State.loadImages_append_singleton, ?entry⟩
  case word =>
    intro s files file origin ws a w hwords hle hw
    rw [State.loadImages_append_singleton, State.loadImage_mem hwords]
    exact readWord_storeWords ws _ hle hw
  case entry => exact fun p files _ _ => State.loadImages_pc files (State.resetWith p)

end Sys2Proof.Machine

/-! Proofs for 30_encoding.md: the decoder's remaining rows, its fields in the words of the encoder, and the bits of a
word that a mask fixes or that no field covers. -/

namespace Sys2Proof

/-! ### The decoder at RTI and RES, and at the trap vectors (R87, R90, R181) -/

section
variable {p : Params} {w : Word}

theorem decode_of_rti (hop : opcodeOf p w = .rti) : decode p w = .rti := by
  rw [decode, hop]

theorem decode_of_res (hop : opcodeOf p w = .res) : decode p w = .res := by
  rw [decode, hop]

end

/-- A vector that selects no service is none of the six (R181). -/
theorem ne_of_not_service {v : BitVec 8} (hv : Config.serviceVectors.contains v = false) :
    v ≠ 0x20 ∧ v ≠ 0x21 ∧ v ≠ 0x22 ∧ v ≠ 0x23 ∧ v ≠ 0x24 ∧ v ≠ 0x25 := by
  have hne : ∀ u ∈ Config.serviceVectors, v ≠ u := by
    rintro _ hu rfl
    rw [List.contains_iff_mem.mpr hu] at hv
    exact Bool.noConfusion hv
  simp only [Config.serviceVectors, List.forall_mem_cons] at hne
  obtain ⟨h20, h21, h22, h23, h24, h25, _⟩ := hne
  exact ⟨h20, h21, h22, h23, h24, h25⟩

theorem decodeTrap_of_not_service {v : BitVec 8} (hv : Config.serviceVectors.contains v = false) :
    decodeTrap v = .trap v := by
  obtain ⟨h20, h21, h22, h23, h24, h25⟩ := ne_of_not_service hv
  rw [decodeTrap, if_neg h20, if_neg h21, if_neg h22, if_neg h23, if_neg h24, if_neg h25]

theorem wf_trap_iff {v : BitVec 8} : (Instr.trap v).wf = true ↔ Config.serviceVectors.contains v = false := by
  rw [Instr.wf, Bool.not_eq_true']

/-- What TRAP decodes to is well-formed and a TRAP, for each vector. -/
theorem decodeTrap_wf_opcode (v : BitVec 8) : (decodeTrap v).wf = true ∧ (decodeTrap v).opcode = .trap := by
  cases hv : Config.serviceVectors.contains v with
  | false =>
    rw [decodeTrap_of_not_service hv]
    exact ⟨wf_trap_iff.mpr hv, rfl⟩
  | true =>
    have hmem : v ∈ [0x20, 0x21, 0x22, 0x23, 0x24, 0x25] := List.contains_iff_mem.mp hv
    fin_cases hmem <;> exact ⟨rfl, rfl⟩

theorem decodeTrap_wf (v : BitVec 8) : (decodeTrap v).wf = true := (decodeTrap_wf_opcode v).1

theorem opcode_decodeTrap (v : BitVec 8) : (decodeTrap v).opcode = .trap := (decodeTrap_wf_opcode v).2

/-! ### The fields of a word put together from fields (R81, R91)

In the encoder's words bits [15:12] and [11:9] come first, then either PCoffset9, or [8:6] with an offset6, or [8:6]
with the mode bit and what follows it. -/

/-- The field with `x` above it and `y` below it. -/
theorem extract_middle {m n k : Nat} (x : BitVec m) (f : BitVec n) (y : BitVec k) :
    (x ++ f ++ y).extractLsb' k n = f := by
  rw [extract_append_high _ _ _ _ (Nat.le_refl k), Nat.sub_self, extract_append_low _ _ _ _ (by omega), extract_all]

section
variable (x u : BitVec 4) (y : BitVec 3) (r : Reg) (b : BitVec 1) (z : BitVec 2) (t : BitVec 3) (imm : BitVec 5)
  (off6 : BitVec 6) (off9 : BitVec 9) (off11 : BitVec 11)

theorem fieldMask_pcRel : fieldMask (x ++ y ++ off9) = y := extract_middle x y off9

theorem fieldOff9_pcRel : fieldOff9 (x ++ y ++ off9) = off9 :=
  (extract_append_low _ _ _ _ (by decide)).trans (extract_all off9)

theorem fieldDr_pcRel : fieldDr (x ++ r.bits ++ off9) = r :=
  (congrArg Reg.ofBits (extract_middle x r.bits off9)).trans r.ofBits_bits

theorem fieldDr_base : fieldDr (x ++ r.bits ++ y ++ off6) = r := by
  rw [fieldDr, extract_append_high _ _ _ _ (by decide), extract_middle, Reg.ofBits_bits]

theorem fieldDr_aluImm : fieldDr (x ++ r.bits ++ y ++ b ++ imm) = r := by
  rw [fieldDr, extract_append_high _ _ _ _ (by decide), extract_append_high _ _ _ _ (by decide), extract_middle,
    Reg.ofBits_bits]

theorem fieldDr_aluReg : fieldDr (x ++ r.bits ++ y ++ b ++ z ++ t) = r := by
  rw [fieldDr, extract_append_high _ _ _ _ (by decide), extract_append_high _ _ _ _ (by decide),
    extract_append_high _ _ _ _ (by decide), extract_middle, Reg.ofBits_bits]

theorem fieldBase_base : fieldBase (x ++ y ++ r.bits ++ off6) = r :=
  (congrArg Reg.ofBits (extract_middle (x ++ y) r.bits off6)).trans r.ofBits_bits

theorem fieldBase_aluImm : fieldBase (x ++ y ++ r.bits ++ b ++ imm) = r := by
  rw [fieldBase, extract_append_high _ _ _ _ (by decide), extract_middle, Reg.ofBits_bits]

theorem fieldBase_aluReg : fieldBase (x ++ y ++ r.bits ++ b ++ z ++ t) = r := by
  rw [fieldBase, extract_append_high _ _ _ _ (by decide), extract_append_high _ _ _ _ (by decide), extract_middle,
    Reg.ofBits_bits]

theorem fieldOff6_base : fieldOff6 (x ++ y ++ t ++ off6) = off6 :=
  (extract_append_low _ _ _ _ (by decide)).trans (extract_all off6)

theorem fieldImm5_aluImm : fieldImm5 (x ++ y ++ t ++ b ++ imm) = imm :=
  (extract_append_low _ _ _ _ (by decide)).trans (extract_all imm)

theorem fieldSr2_aluReg : fieldSr2 (x ++ y ++ t ++ b ++ z ++ r.bits) = r := by
  rw [fieldSr2, extract_append_low _ _ _ _ (by decide), extract_all, Reg.ofBits_bits]

theorem fieldOff11_jsr : fieldOff11 (x ++ b ++ off11) = off11 :=
  (extract_append_low _ _ _ _ (by decide)).trans (extract_all off11)

theorem fieldVect_trap (v : BitVec 8) : fieldVect (x ++ u ++ v) = v :=
  (extract_append_low _ _ _ _ (by decide)).trans (extract_all v)

/-- The mode bit of ADD and AND, in either form. -/
theorem getLsbD_five_aluImm (mode : Bool) :
    (x ++ y ++ t ++ BitVec.ofBool mode ++ imm).getLsbD 5 = mode := by
  rw [BitVec.getLsbD_append, BitVec.getLsbD_append]
  simp

theorem getLsbD_five_aluReg (mode : Bool) :
    (x ++ y ++ t ++ BitVec.ofBool mode ++ z ++ r.bits).getLsbD 5 = mode := by
  rw [BitVec.getLsbD_append, BitVec.getLsbD_append, BitVec.getLsbD_append]
  simp

theorem getLsbD_eleven_jsr : (x ++ 1#1 ++ off11).getLsbD 11 = true := by
  rw [BitVec.getLsbD_append, BitVec.getLsbD_append]
  rfl

theorem getLsbD_eleven_jsrr : (x ++ 0#3 ++ r.bits ++ off6).getLsbD 11 = false := by
  rw [BitVec.getLsbD_append, BitVec.getLsbD_append, BitVec.getLsbD_append]
  rfl

end

/-! ### Decoding what the encoder gives -/

theorem decode_encodeTrap {p : Params} (hp : p.Valid) (v : BitVec 8) : decode p (encodeTrap p v) = decodeTrap v := by
  rw [decode_of_trap (opcodeOf_encodeTrap hp v), encodeTrap, fieldVect_trap]

open Laws in
/-- The encoder puts the instruction's opcode where the decoder reads it, and the operands where the decoder's row for
that opcode reads them. -/
theorem decode_encode {p : Params} (hp : p.Valid) {i : Instr} (hwf : i.wf = true) : decode p (encode p i) = i := by
  cases i with
  | br mask off => rw [decode_of_br (EncodedOpcode.br mask off p hp), encode, fieldMask_pcRel, fieldOff9_pcRel]
  | addReg dr sr1 sr2 =>
    rw [decode_of_add (EncodedOpcode.addReg dr sr1 sr2 p hp), encode, encodeAluReg, getLsbD_five_aluReg,
      if_neg (Bool.not_ne_self _), fieldDr_aluReg, fieldBase_aluReg, fieldSr2_aluReg]
  | addImm dr sr1 imm =>
    rw [decode_of_add (EncodedOpcode.addImm dr sr1 imm p hp), encode, encodeAluImm, getLsbD_five_aluImm,
      if_pos rfl, fieldDr_aluImm, fieldBase_aluImm, fieldImm5_aluImm]
  | andReg dr sr1 sr2 =>
    rw [decode_of_and (EncodedOpcode.andReg dr sr1 sr2 p hp), encode, encodeAluReg, getLsbD_five_aluReg,
      if_neg (Bool.not_ne_self _), fieldDr_aluReg, fieldBase_aluReg, fieldSr2_aluReg]
  | andImm dr sr1 imm =>
    rw [decode_of_and (EncodedOpcode.andImm dr sr1 imm p hp), encode, encodeAluImm, getLsbD_five_aluImm,
      if_pos rfl, fieldDr_aluImm, fieldBase_aluImm, fieldImm5_aluImm]
  | not dr sr => rw [decode_of_not (EncodedOpcode.not dr sr p hp), encode, fieldDr_base, fieldBase_base]
  | jmp base => rw [decode_of_jmp (EncodedOpcode.jmp base p hp), encode, fieldBase_base]
  | jsr off =>
    rw [decode_of_jsr (EncodedOpcode.jsr off p hp), encode, getLsbD_eleven_jsr, if_pos rfl, fieldOff11_jsr]
  | jsrr base =>
    rw [decode_of_jsr (EncodedOpcode.jsrr base p hp), encode, getLsbD_eleven_jsrr, if_neg Bool.false_ne_true,
      fieldBase_base]
  | ld dr off => rw [decode_of_ld (EncodedOpcode.ld dr off p hp), encode, encodePcRel, fieldDr_pcRel, fieldOff9_pcRel]
  | ldi dr off =>
    rw [decode_of_ldi (EncodedOpcode.ldi dr off p hp), encode, encodePcRel, fieldDr_pcRel, fieldOff9_pcRel]
  | lea dr off =>
    rw [decode_of_lea (EncodedOpcode.lea dr off p hp), encode, encodePcRel, fieldDr_pcRel, fieldOff9_pcRel]
  | st sr off => rw [decode_of_st (EncodedOpcode.st sr off p hp), encode, encodePcRel, fieldDr_pcRel, fieldOff9_pcRel]
  | sti sr off =>
    rw [decode_of_sti (EncodedOpcode.sti sr off p hp), encode, encodePcRel, fieldDr_pcRel, fieldOff9_pcRel]
  | ldr dr base off =>
    rw [decode_of_ldr (EncodedOpcode.ldr dr base off p hp), encode, encodeBase, fieldDr_base, fieldBase_base,
      fieldOff6_base]
  | str sr base off =>
    rw [decode_of_str (EncodedOpcode.str sr base off p hp), encode, encodeBase, fieldDr_base, fieldBase_base,
      fieldOff6_base]
  | rti => exact decode_of_rti (EncodedOpcode.rti p hp)
  | res => exact decode_of_res (EncodedOpcode.res p hp)
  | trapGetc => exact decode_encodeTrap hp 0x20
  | trapOut => exact decode_encodeTrap hp 0x21
  | trapPuts => exact decode_encodeTrap hp 0x22
  | trapIn => exact decode_encodeTrap hp 0x23
  | trapPutsp => exact decode_encodeTrap hp 0x24
  | trapHalt => exact decode_encodeTrap hp 0x25
  | trap v => exact (decode_encodeTrap hp v).trans (decodeTrap_of_not_service (wf_trap_iff.mp hwf))

/-- Settles O1: `decode_encode`. -/
theorem decodeOfEncodeIsInstruction : Obligations.DecodeOfEncodeIsInstruction :=
  fun _ _ hp hwf => decode_encode hp hwf

/-! ### Every word by its opcode (R87, R90) -/

/-- What a word decodes to is well-formed and has the word's opcode. -/
theorem decode_wf_opcode (p : Params) (w : Word) : (decode p w).wf = true ∧ (decode p w).opcode = opcodeOf p w := by
  cases hop : opcodeOf p w with
  | br => rw [decode_of_br hop]; exact ⟨rfl, rfl⟩
  | add => rw [decode_of_add hop]; split <;> exact ⟨rfl, rfl⟩
  | ld => rw [decode_of_ld hop]; exact ⟨rfl, rfl⟩
  | st => rw [decode_of_st hop]; exact ⟨rfl, rfl⟩
  | jsr => rw [decode_of_jsr hop]; split <;> exact ⟨rfl, rfl⟩
  | and => rw [decode_of_and hop]; split <;> exact ⟨rfl, rfl⟩
  | ldr => rw [decode_of_ldr hop]; exact ⟨rfl, rfl⟩
  | str => rw [decode_of_str hop]; exact ⟨rfl, rfl⟩
  | rti => rw [decode_of_rti hop]; exact ⟨rfl, rfl⟩
  | not => rw [decode_of_not hop]; exact ⟨rfl, rfl⟩
  | ldi => rw [decode_of_ldi hop]; exact ⟨rfl, rfl⟩
  | sti => rw [decode_of_sti hop]; exact ⟨rfl, rfl⟩
  | jmp => rw [decode_of_jmp hop]; exact ⟨rfl, rfl⟩
  | res => rw [decode_of_res hop]; exact ⟨rfl, rfl⟩
  | lea => rw [decode_of_lea hop]; exact ⟨rfl, rfl⟩
  | trap => rw [decode_of_trap hop]; exact decodeTrap_wf_opcode _

theorem decode_wf (p : Params) (w : Word) : (decode p w).wf = true := (decode_wf_opcode p w).1

theorem opcode_decode (p : Params) (w : Word) : (decode p w).opcode = opcodeOf p w := (decode_wf_opcode p w).2

/-- Settles O2: the decoder's row for each opcode; of TRAP's, only the general one has a condition to meet. -/
theorem everyWordDecodesWellFormed : Obligations.EveryWordDecodesWellFormed := decode_wf

/-- Settles O3: the decoder's row for each opcode, ADD and AND in the one clause they share. -/
theorem decoderReadsFieldsByOpcode : Obligations.DecoderReadsFieldsByOpcode := by
  intro p w
  refine ⟨?alu, decode_of_not, decode_of_br, decode_of_jmp, decode_of_jsr, decode_of_ld, decode_of_ldi, decode_of_lea,
    decode_of_st, decode_of_sti, decode_of_ldr, decode_of_str, decode_of_trap, decode_of_rti, decode_of_res⟩
  case alu =>
    rintro (hop | hop)
    · rw [if_pos hop, if_pos hop]
      exact decode_of_add hop
    · have hne : p.opcodeAt (w.extractLsb' 12 4) ≠ .add := hop ▸ Opcode.noConfusion
      rw [if_neg hne, if_neg hne]
      exact decode_of_and hop

/-! ### The bits of a word that a mask fixes (R90) -/

section
variable {w m x : Word} (h : w &&& m = x)
include h

/-- Where the mask is all ones a matching word has the bits of the match. -/
theorem extract_of_masked {k n : Nat} (hm : m.extractLsb' k n = BitVec.allOnes n) :
    w.extractLsb' k n = x.extractLsb' k n := by
  rw [← h, BitVec.extractLsb'_and, hm, BitVec.and_allOnes]

theorem getLsbD_of_masked {i : Nat} (hm : m.getLsbD i = true := by decide) : w.getLsbD i = x.getLsbD i := by
  rw [← h, BitVec.getLsbD_and, hm, Bool.and_true]

theorem opcodeOf_of_masked {p : Params} {op : Opcode} (hx : opcodeOf p x = op)
    (hm : m.extractLsb' 12 4 = BitVec.allOnes 4 := by decide) : opcodeOf p w = op :=
  (congrArg p.opcodeAt (extract_of_masked h hm)).trans hx

theorem decode_of_masked_trap {p : Params} (hx : opcodeOf p x = .trap)
    (hm : m.extractLsb' 12 4 = BitVec.allOnes 4 := by decide) (hv : m.extractLsb' 0 8 = BitVec.allOnes 8 := by decide) :
    decode p w = decodeTrap (fieldVect x) :=
  (decode_of_trap (opcodeOf_of_masked h hx hm)).trans (congrArg decodeTrap (extract_of_masked h hv))

end

/-- Settles O4: the mask fixes the opcode, the mode bit of ADD, AND and JSR, and the vector of a service; the decoder's
row for that opcode says the rest. -/
theorem opcodeTableRowsDecode : Obligations.OpcodeTableRowsDecode := by
  refine ⟨?br, ?addReg, ?addImm, ?ld, ?st, ?jsr, ?jsrr, ?andReg, ?andImm, ?ldr, ?str, ?rti, ?not, ?ldi, ?sti, ?jmp,
    ?res, ?lea, ?trapGetc, ?trapOut, ?trapPuts, ?trapIn, ?trapPutsp, ?trapHalt, ?trap⟩
  case br => exact fun _ h => decode_of_br (opcodeOf_of_masked h rfl)
  case addReg =>
    exact fun _ h => (decode_of_add (opcodeOf_of_masked h rfl)).trans
      (if_neg (ne_true_of_eq_false (getLsbD_of_masked h)))
  case addImm =>
    exact fun _ h => (decode_of_add (opcodeOf_of_masked h rfl)).trans (if_pos (getLsbD_of_masked h))
  case ld => exact fun _ h => decode_of_ld (opcodeOf_of_masked h rfl)
  case st => exact fun _ h => decode_of_st (opcodeOf_of_masked h rfl)
  case jsr =>
    exact fun _ h => (decode_of_jsr (opcodeOf_of_masked h rfl)).trans (if_pos (getLsbD_of_masked h))
  case jsrr =>
    exact fun _ h => (decode_of_jsr (opcodeOf_of_masked h rfl)).trans
      (if_neg (ne_true_of_eq_false (getLsbD_of_masked h)))
  case andReg =>
    exact fun _ h => (decode_of_and (opcodeOf_of_masked h rfl)).trans
      (if_neg (ne_true_of_eq_false (getLsbD_of_masked h)))
  case andImm =>
    exact fun _ h => (decode_of_and (opcodeOf_of_masked h rfl)).trans (if_pos (getLsbD_of_masked h))
  case ldr => exact fun _ h => decode_of_ldr (opcodeOf_of_masked h rfl)
  case str => exact fun _ h => decode_of_str (opcodeOf_of_masked h rfl)
  case rti => exact fun _ h => decode_of_rti (opcodeOf_of_masked h rfl)
  case not => exact fun _ h => decode_of_not (opcodeOf_of_masked h rfl)
  case ldi => exact fun _ h => decode_of_ldi (opcodeOf_of_masked h rfl)
  case sti => exact fun _ h => decode_of_sti (opcodeOf_of_masked h rfl)
  case jmp => exact fun _ h => decode_of_jmp (opcodeOf_of_masked h rfl)
  case res => exact fun _ h => decode_of_res (opcodeOf_of_masked h rfl)
  case lea => exact fun _ h => decode_of_lea (opcodeOf_of_masked h rfl)
  case trapGetc => exact fun _ h => decode_of_masked_trap h rfl
  case trapOut => exact fun _ h => decode_of_masked_trap h rfl
  case trapPuts => exact fun _ h => decode_of_masked_trap h rfl
  case trapIn => exact fun _ h => decode_of_masked_trap h rfl
  case trapPutsp => exact fun _ h => decode_of_masked_trap h rfl
  case trapHalt => exact fun _ h => decode_of_masked_trap h rfl
  case trap =>
    exact fun _ h hv => (decode_of_trap (opcodeOf_of_masked h rfl)).trans (decodeTrap_of_not_service hv)

/-! ### The bits that no field covers (R88) -/

/-- Flipping bits outside a field leaves the field. -/
theorem extract_xor_masked {m : Word} {k n : Nat} (hm : m.extractLsb' k n = 0#n) (w x : Word) :
    (w ^^^ (x &&& m)).extractLsb' k n = w.extractLsb' k n := by
  rw [BitVec.extractLsb'_xor, BitVec.extractLsb'_and, hm, BitVec.and_zero, BitVec.xor_zero]

section
variable {m : Word} (w x : Word)

theorem getLsbD_xor_masked {i : Nat} (hm : m.getLsbD i = false := by decide) :
    (w ^^^ (x &&& m)).getLsbD i = w.getLsbD i := by
  rw [BitVec.getLsbD_xor, BitVec.getLsbD_and, hm, Bool.and_false, Bool.xor_false]

theorem fieldDr_xor_masked (hm : m.extractLsb' 9 3 = 0#3 := by decide) : fieldDr (w ^^^ (x &&& m)) = fieldDr w :=
  congrArg Reg.ofBits (extract_xor_masked hm w x)

theorem fieldBase_xor_masked (hm : m.extractLsb' 6 3 = 0#3 := by decide) : fieldBase (w ^^^ (x &&& m)) = fieldBase w :=
  congrArg Reg.ofBits (extract_xor_masked hm w x)

theorem fieldSr2_xor_masked (hm : m.extractLsb' 0 3 = 0#3 := by decide) : fieldSr2 (w ^^^ (x &&& m)) = fieldSr2 w :=
  congrArg Reg.ofBits (extract_xor_masked hm w x)

theorem fieldVect_xor_masked (hm : m.extractLsb' 0 8 = 0#8 := by decide) : fieldVect (w ^^^ (x &&& m)) = fieldVect w :=
  extract_xor_masked hm w x

/-- Flipping bits below bit 12 leaves the opcode. -/
theorem opcodeOf_xor_masked {w : Word} {p : Params} {op : Opcode} (hop : opcodeOf p w = op)
    (hm : m.extractLsb' 12 4 = 0#4 := by decide) : opcodeOf p (w ^^^ (x &&& m)) = op :=
  (congrArg p.opcodeAt (extract_xor_masked hm w x)).trans hop

end

/-- Settles O5: the opcode, and of its row in the decoder every field and mode bit, lie outside the flipped bits. -/
theorem uncoveredBitsAreIgnored : Obligations.UncoveredBitsAreIgnored := by
  refine ⟨?not, ?jmp, ?jsrr, ?aluReg, ?trap, ?noOps⟩
  case not =>
    intro p w x hop
    rw [decode_of_not hop, decode_of_not (opcodeOf_xor_masked x hop), fieldDr_xor_masked, fieldBase_xor_masked]
  case jmp =>
    intro p w x hop
    rw [decode_of_jmp hop, decode_of_jmp (opcodeOf_xor_masked x hop), fieldBase_xor_masked]
  case jsrr =>
    intro p w x hop hform
    rw [decode_of_jsr hop, decode_of_jsr (opcodeOf_xor_masked x hop), getLsbD_xor_masked, hform,
      if_neg Bool.false_ne_true, if_neg Bool.false_ne_true, fieldBase_xor_masked]
  case aluReg =>
    rintro p w x (hop | hop) hmode
    · rw [decode_of_add hop, decode_of_add (opcodeOf_xor_masked x hop), getLsbD_xor_masked, if_neg hmode, if_neg hmode,
        fieldDr_xor_masked, fieldBase_xor_masked, fieldSr2_xor_masked]
    · rw [decode_of_and hop, decode_of_and (opcodeOf_xor_masked x hop), getLsbD_xor_masked, if_neg hmode, if_neg hmode,
        fieldDr_xor_masked, fieldBase_xor_masked, fieldSr2_xor_masked]
  case trap =>
    intro p w x hop
    rw [decode_of_trap hop, decode_of_trap (opcodeOf_xor_masked x hop), fieldVect_xor_masked]
  case noOps =>
    rintro p w x (hop | hop)
    · rw [decode_of_rti hop, decode_of_rti (opcodeOf_xor_masked x hop)]
    · rw [decode_of_res hop, decode_of_res (opcodeOf_xor_masked x hop)]

/-- Settles O6: by evaluation of the decoder on each word. -/
theorem sampleWordsDecodeAsWritten : Obligations.SampleWordsDecodeAsWritten := by
  unfold Obligations.SampleWordsDecodeAsWritten
  decide

end Sys2Proof

/-! Proofs for 00_scope.md section 4, 10_state.md section 4 and 20_memory.md: the constraints on the parameters,
canonical memories, the keyboard poll and the plain store. -/

namespace Sys2Proof.Machine

/-! ### The parameters (R7) -/

/-- A number that selects each opcode in the default map (R84). -/
theorem default_opcodeAt_surjective (op : Opcode) : ∃ n, Params.default.opcodeAt n = op := by
  cases op with
  | br => exact ⟨0, rfl⟩
  | add => exact ⟨1, rfl⟩
  | ld => exact ⟨2, rfl⟩
  | st => exact ⟨3, rfl⟩
  | jsr => exact ⟨4, rfl⟩
  | and => exact ⟨5, rfl⟩
  | ldr => exact ⟨6, rfl⟩
  | str => exact ⟨7, rfl⟩
  | rti => exact ⟨8, rfl⟩
  | not => exact ⟨9, rfl⟩
  | ldi => exact ⟨10, rfl⟩
  | sti => exact ⟨11, rfl⟩
  | jmp => exact ⟨12, rfl⟩
  | res => exact ⟨13, rfl⟩
  | lea => exact ⟨14, rfl⟩
  | trap => exact ⟨15, rfl⟩

theorem default_valid : Params.default.Valid := by
  have injective : ∀ m n, Params.default.opcodeAt m = Params.default.opcodeAt n → m = n := by decide
  exact ⟨default_opcodeAt_surjective, injective, rfl, by decide, by decide, by decide, by decide, by decide, by decide,
    by decide⟩

theorem condBits_injective {p : Params} (hp : p.Valid) {c d : Cond} (h : condBits p c = condBits p d) : c = d := by
  obtain ⟨_, _, _, _, _, _, hpz, hpn, hzn, _⟩ := hp
  cases c with
  | positive => cases d with
    | positive => rfl
    | zero => exact absurd h hpz
    | negative => exact absurd h hpn
  | zero => cases d with
    | positive => exact absurd h.symm hpz
    | zero => rfl
    | negative => exact absurd h hzn
  | negative => cases d with
    | positive => exact absurd h.symm hpn
    | zero => exact absurd h.symm hzn
    | negative => rfl

@[simp] theorem condHolds_zeroMask (p : Params) (c : Cond) : condHolds p 0b000 c = false := by
  rw [condHolds, show 0b000 &&& condBits p c = 0#3 from BitVec.zero_and]
  rfl

/-- Settles O12: the defaults by evaluation; of any valid choice, the patterns differ pairwise and have one bit each,
which the full mask meets. -/
theorem parametersMeetConstraints : Obligations.ParametersMeetConstraints := by
  refine ⟨default_valid, fun p hp =>
    ⟨oneHot_condBits hp, fun _ _ h => condBits_injective hp h, fun c => ⟨?full, ?zero⟩⟩⟩
  case full => exact condHolds_iff.mpr (fullMask_and_ne_zero (oneHot_condBits hp c))
  case zero => exact condHolds_zeroMask p c

/-- Settles O55: an empty memory lists nothing, and the parameters are those given. -/
theorem resetMeetsInvariant : Obligations.ResetMeetsInvariant :=
  ⟨⟨rfl, default_valid⟩, fun _ hp => ⟨rfl, hp⟩⟩

/-! ### Canonical memories (R32; log entry 16) -/

theorem Memory.wfFrom_cons_iff {lo k : Nat} {v : Byte} {rest : Memory} :
    Memory.wfFrom lo ((k, v) :: rest) = true ↔
      lo ≤ k ∧ k < Config.memCells ∧ v ≠ Config.unlisted ∧ Memory.wfFrom (k + 1) rest = true := by
  simp only [Memory.wfFrom, Bool.and_eq_true, decide_eq_true_eq, and_assoc]

theorem Memory.readByte_cons_self (k : Nat) (v : Byte) (rest : Memory) :
    Memory.readByte ((k, v) :: rest) k = v := if_pos rfl

theorem Memory.readByte_cons_ne {j k : Nat} (h : k ≠ j) (v : Byte) (rest : Memory) :
    Memory.readByte ((k, v) :: rest) j = rest.readByte j := if_neg h

/-- A canonical memory that reads everywhere as an unlisted cell is empty. -/
theorem Memory.eq_nil_of_wfFrom {lo : Nat} {m : Memory} (hm : Memory.wfFrom lo m = true)
    (h : ∀ k, m.readByte k = Config.unlisted) : m = [] := by
  cases m with
  | nil => rfl
  | cons c rest =>
    obtain ⟨k, v⟩ := c
    obtain ⟨_, _, hv, _⟩ := Memory.wfFrom_cons_iff.mp hm
    exact absurd ((Memory.readByte_cons_self k v rest).symm.trans (h k)) hv

/-- The first cell of a canonical memory is not below that of another that reads alike: the other would read there as
unlisted. -/
theorem Memory.first_cell_le {lo k j : Nat} {v u : Byte} {rest more : Memory}
    (hm : Memory.wfFrom lo ((k, v) :: rest) = true) (hn : Memory.wfFrom lo ((j, u) :: more) = true)
    (h : ∀ i, Memory.readByte ((k, v) :: rest) i = Memory.readByte ((j, u) :: more) i) : j ≤ k := by
  obtain ⟨_, _, hv, _⟩ := Memory.wfFrom_cons_iff.mp hm
  obtain ⟨_, hj, hu, hmore⟩ := Memory.wfFrom_cons_iff.mp hn
  by_contra hlt
  have hfrom : Memory.wfFrom j ((j, u) :: more) = true := Memory.wfFrom_cons_iff.mpr ⟨le_rfl, hj, hu, hmore⟩
  have hread := h k
  rw [Memory.readByte_cons_self, Memory.wfFrom_readByte_lt (Nat.lt_of_not_le hlt) hfrom] at hread
  exact hv hread

theorem Memory.ext_of_wfFrom (m : Memory) : ∀ {lo : Nat} {n : Memory}, Memory.wfFrom lo m = true →
    Memory.wfFrom lo n = true → (∀ k, m.readByte k = n.readByte k) → m = n := by
  induction m with
  | nil => exact fun _ hn h => (Memory.eq_nil_of_wfFrom hn fun k => (h k).symm).symm
  | cons c rest ih =>
    intro lo n hm hn h
    obtain ⟨k, v⟩ := c
    cases n with
    | nil => exact Memory.eq_nil_of_wfFrom hm h
    | cons d more =>
      obtain ⟨j, u⟩ := d
      obtain rfl : j = k := le_antisymm (Memory.first_cell_le hm hn h) (Memory.first_cell_le hn hm fun i => (h i).symm)
      obtain rfl : v = u := by simpa only [Memory.readByte_cons_self] using h j
      obtain ⟨_, _, _, hrest⟩ := Memory.wfFrom_cons_iff.mp hm
      obtain ⟨_, _, _, hmore⟩ := Memory.wfFrom_cons_iff.mp hn
      have tails (i : Nat) : Memory.readByte rest i = Memory.readByte more i := by
        by_cases hi : j = i
        · subst hi
          have hj : j < j + 1 := Nat.lt_succ_self j
          rw [Memory.wfFrom_readByte_lt hj hrest, Memory.wfFrom_readByte_lt hj hmore]
        · simpa only [Memory.readByte_cons_ne hi] using h i
      rw [ih hrest hmore tails]

/-- Settles O13: `Memory.ext_of_wfFrom` from cell 0 on. -/
theorem canonicalMemoriesAreEqualData : Obligations.CanonicalMemoriesAreEqualData :=
  fun m _ hm hn h => Memory.ext_of_wfFrom m hm hn h

/-! ### The status word's read and the plain store (R50 to R53, R65) -/

theorem State.memRead_kbsr (s : State) :
    s.memRead s.params.kbsrAddr = (s.kbdPoll.mem.readWord s.params.kbsrAddr, s.kbdPoll) := by
  rw [State.memRead, State.busAction_kbsr]

theorem State.kbdPoll_sameControl (s : State) : SameControl s s.kbdPoll :=
  ⟨s.kbdPoll_pc, s.kbdPoll_running, s.kbdPoll_params⟩

theorem State.kbdPoll_sameMemButDevice (s : State) : SameMemButDevice s s.kbdPoll :=
  fun _ h1 h2 h3 h4 => s.kbdPoll_readByte h1 h2 h3 h4

/-- With `In` empty the poll is a store of zero in the status word. -/
theorem State.kbdPoll_eq_memWrite {s : State} (h : s.input = []) : s.kbdPoll = s.memWrite s.params.kbsrAddr 0x0000 :=
  State.kbdPoll_empty h

/-- Settles O15: a status read is the poll, which with `In` empty stores zero in the status word, and else stores 0x8000
there and the byte in the data word. -/
theorem statusReadPollsKeyboard : Obligations.StatusReadPollsKeyboard := by
  refine ⟨?empty, ?byte⟩
  case empty =>
    intro s hin
    rw [State.memRead_kbsr, State.kbdPoll_eq_memWrite hin]
    exact ⟨s.mem.readWord_write_self s.params.kbsrAddr 0x0000, s.memWrite_writesOnlyWord s.params.kbsrAddr 0x0000⟩
  case byte =>
    intro s b rest hp hin
    have hstatus : s.kbdPoll.mem.readWord s.params.kbsrAddr = 0x8000 := by
      rw [State.kbdPoll_mem_byte hin, Memory.readWord_write_ne _ (zext8 b) (kbdrAddr_ne_kbsrAddr hp).symm,
        Memory.readWord_write_self]
    have hdata : (s.kbdPoll.mem.readWord s.params.kbdrAddr).toNat = b.toNat := by
      rw [State.kbdPoll_mem_byte hin, Memory.readWord_write_self, zext8_toNat]
    have hrest : s.kbdPoll.input = rest := by rw [State.kbdPoll_input, hin, List.tail_cons]
    rw [State.memRead_kbsr]
    exact ⟨hstatus, hstatus, hdata, s.kbdPoll_sameMemButDevice, s.kbdPoll_reg, s.kbdPoll_cond, s.kbdPoll_sameControl,
      hrest, s.kbdPoll_output, s.kbdPoll_arrivals⟩

/-- Settles O16: `State.memWrite_writesOnlyWord`. -/
theorem writeIsPlainStore : Obligations.WriteIsPlainStore := State.memWrite_writesOnlyWord

/-- Settles O17: away from KBSR_ADDR the fetch reads the word at `pc`, here the word just stored. -/
theorem fetchSeesTheStore : Obligations.FetchSeesTheStore := by
  intro s a v hne
  have hread : ((s.memWrite a v).setPc a).memRead a = ((s.memWrite a v).mem.readWord a, (s.memWrite a v).setPc a) :=
    State.memRead_ne hne
  rw [State.fetch, State.setPc_pc, hread]
  exact s.mem.readWord_write_self a v

end Sys2Proof.Machine

/-! Proofs for 70_reset_and_hazards.md section 2: the words of a file and where loading them stores. -/

namespace Sys2Proof.Machine

/-! ### The words of a file (R253) -/

@[simp] theorem imageWords_pair (hi lo : Byte) (rest : List Byte) :
    imageWords (hi :: lo :: rest) = (hi ++ lo) :: imageWords rest := rfl

theorem imageWords_of_short {file : List Byte} (h : file.length < 2) : imageWords file = [] := by
  match file, h with
  | [], _ => rfl
  | [_], _ => rfl

theorem length_imageWords : ∀ file : List Byte, (imageWords file).length = file.length / 2
  | [] => rfl
  | [_] => (Nat.div_eq_of_lt Nat.one_lt_two).symm
  | hi :: lo :: rest => by
    rw [imageWords_pair, List.length_cons, length_imageWords rest, List.length_cons, List.length_cons]
    omega

/-- Word `k` is made of the bytes at `2 * k` and `2 * k + 1`. -/
theorem imageWords_getElem? {hi lo : Byte} : ∀ (file : List Byte) (k : Nat), file[2 * k]? = some hi →
    file[2 * k + 1]? = some lo → (imageWords file)[k]? = some (hi ++ lo)
  | [], _, hhi, _ => by simp at hhi
  | [_], _, _, hlo => by simp at hlo
  | b :: c :: rest, 0, hhi, hlo => by
    obtain rfl : b = hi := by simpa using hhi
    obtain rfl : c = lo := by simpa using hlo
    rfl
  | b :: c :: rest, k + 1, hhi, hlo => imageWords_getElem? rest k hhi hlo

/-! ### Where loading stores (R254) -/

/-- Every word past the last one stored stays. -/
theorem readWord_storeWords_of_ge {b : Word} (ws : List Word) :
    ∀ {a : Nat} (m : Memory), a + ws.length ≤ b.toNat → (storeWords a ws m).readWord b = m.readWord b := by
  induction ws with
  | nil => exact fun _ _ => rfl
  | cons w ws ih =>
    intro a m hb
    rw [List.length_cons] at hb
    have hlt : a < b.toNat := by omega
    have ha : a < Config.memWords := hlt.trans b.isLt
    have hself : (BitVec.ofNat 16 a).toNat = a := (BitVec.toNat_ofNat a 16).trans (Nat.mod_eq_of_lt ha)
    have hne : b ≠ BitVec.ofNat 16 a := fun heq => hlt.ne' ((congrArg BitVec.toNat heq).trans hself)
    rw [storeWords_cons ha, ih _ (by omega), Memory.readWord_write_ne m w hne]

theorem State.loadImage_of_nil {file : List Byte} (h : imageWords file = []) (s : State) : s.loadImage file = s := by
  rw [State.loadImage, h]

/-- Settles O58: the words of a file by its pairs; then the stored words, those below and those above them. -/
theorem imageLoadStoresItsWords : Obligations.ImageLoadStoresItsWords := by
  refine ⟨length_imageWords, fun file k _ _ => imageWords_getElem? file k,
    fun s _ h => State.loadImage_of_nil (imageWords_of_short h) s, ?load⟩
  case load =>
    intro s file origin ws hwords
    rw [State.loadImage_mem hwords]
    refine ⟨fun _ _ => readWord_storeWords ws s.mem, ?outside, ?rest⟩
    case outside =>
      rintro a (hbelow | habove)
      · exact readWord_storeWords_of_lt ws s.mem hbelow
      · exact readWord_storeWords_of_ge ws s.mem habove
    case rest =>
      rw [← State.loadImage_mem hwords]
      exact s.loadImage_eq file

end Sys2Proof.Machine

/-! Proofs for 41_control.md section 3 and 43_trap.md: JSRR, what each service of TRAP answers, and the string loop. -/

namespace Sys2Proof.Machine

/-! ### JSRR (R136) -/

@[simp] theorem exec_jsrr (s : State) (base : Reg) : exec (.jsrr base) s = .next (s.link.setPc (s.link.reg base)) := rfl

/-- Settles O26: `decode_of_jsr` where bit 11 selects the register form; the base is read after the link, which only R7
tells apart. -/
theorem jsrrLinksThenReadsBase : Obligations.JsrrLinksThenReadsBase := by
  refine ⟨?decode, ?other, ?r7⟩
  case decode =>
    intro p w hop hform
    rw [decode_of_jsr hop, hform, if_neg Bool.false_ne_true]
    rfl
  case other =>
    intro base s hne
    refine ⟨_, exec_jsrr s base, ?_⟩
    rw [s.link_reg_ne hne]
    exact s.link_setPc_linksAndJumps _
  case r7 =>
    intro s
    refine ⟨_, exec_jsrr s .r7, ?_⟩
    rw [s.link_reg_r7]
    exact s.link_setPc_linksAndJumps _

/-! ### Writing nothing, and writing twice (R37) -/

@[simp] theorem State.emit_nil (s : State) : s.emit [] = s := by rw [State.emit, List.append_nil]

theorem State.emit_emit (s : State) (bs cs : List Byte) : (s.emit bs).emit cs = s.emit (bs ++ cs) := by
  rw [State.emit, State.emit_output, List.append_assoc]
  rfl

/-! ### The general TRAP (R180, R181, R199) -/

theorem exec_trap_of_not_service {v : BitVec 8} (hv : Config.serviceVectors.contains v = false) (s : State) :
    exec (.trap v) s = .next s.link := by
  obtain ⟨h20, h21, h22, h23, h24, h25⟩ := ne_of_not_service hv
  rw [exec, execTrap, if_neg h20, if_neg h21, if_neg h22, if_neg h23, if_neg h24, if_neg h25]

/-- Settles O42: without a service TRAP is the link, which writes the empty string; with one the two arms are one. -/
theorem trapVectorSelectsService : Obligations.TrapVectorSelectsService := by
  refine ⟨?none, fun _ => ⟨rfl, rfl, rfl, rfl, rfl, rfl⟩⟩
  case none =>
    intro v s hv
    refine ⟨_, exec_trap_of_not_service hv s, ?_⟩
    simpa only [State.emit_nil] using s.link_emit_linksAndEmits []

/-! ### HALT (R33, R198) -/

@[simp] theorem exec_trapHalt (s : State) :
    exec .trapHalt s = .next ((s.link.emit s.params.haltNotice).withRunning false) := rfl

theorem step_of_running {s : State} (h : s.running = true) :
    step s = exec (decode s.params s.hostTurn.fetch.1) s.hostTurn.fetch.2 := if_pos h

theorem step_of_not_running {s : State} (h : s.running = false) : step s = .fault .halted :=
  if_neg (ne_true_of_eq_false h)

/-- Settles O41: `decode_of_trap` at HALT's vector, the frame of writing the notice after the link, and the run bit,
which a step needs. -/
theorem haltWritesNoticeAndStops : Obligations.HaltWritesNoticeAndStops := by
  refine ⟨fun _ _ hop hv => (decode_of_trap hop).trans (congrArg decodeTrap hv), ?exec⟩
  case exec =>
    intro s
    obtain ⟨hlink, hout, hregs, hcond, ⟨hpc, _, hparams⟩, hmem, hin, harr⟩ :=
      s.link_emit_linksAndEmits s.params.haltNotice
    refine ⟨_, exec_trapHalt s, rfl, hpc, hlink, hout, hregs, hcond, hmem, hin, harr, hparams, ?stopped⟩
    case stopped =>
      intro u hstep
      rw [step_of_not_running rfl] at hstep
      cases hstep

/-! ### GETC and IN (R182, R183, R192) -/

/-- A byte as a word has bit 15 clear. -/
theorem condOf_zext8_ne_negative (b : Byte) : condOf (zext8 b) ≠ .negative := by
  have htop : (zext8 b).getLsbD 15 = false := by
    rw [zext8, BitVec.getLsbD_setWidth, BitVec.getLsbD_of_ge b 15 (by decide), Bool.and_false]
  by_cases hzero : zext8 b = 0x0000
  · rw [hzero, condOf_zero]
    exact Cond.noConfusion
  · rw [condOf_positive hzero htop]
    exact Cond.noConfusion

/-- What GETC and IN leave when they take the byte `b` and so leave `rest` in `In`: the link, the bytes `bs` written,
and `b` received. -/
def State.serveByte (s : State) (b : Byte) (rest bs : List Byte) : State :=
  ((State.link { s with input := rest }).emit bs).receive b

section
variable (s : State) (b : Byte) (rest bs : List Byte)

@[simp] theorem State.serveByte_reg_r0 : (s.serveByte b rest bs).reg .r0 = zext8 b := State.receive_reg_r0 _ b

theorem State.serveByte_reg_ne {r : Reg} (h0 : r ≠ .r0) (h7 : r ≠ .r7) : (s.serveByte b rest bs).reg r = s.reg r :=
  (State.receive_reg_ne _ b h0).trans (State.link_reg_ne _ h7)

@[simp] theorem State.serveByte_reg_r7 : (s.serveByte b rest bs).reg .r7 = s.pc :=
  (State.receive_reg_ne _ b (by decide)).trans (State.link_reg_r7 _)

@[simp] theorem State.serveByte_cond : (s.serveByte b rest bs).cond = condOf (zext8 b) := State.receive_cond _ b
@[simp] theorem State.serveByte_pc : (s.serveByte b rest bs).pc = s.pc := rfl
@[simp] theorem State.serveByte_running : (s.serveByte b rest bs).running = s.running := rfl
@[simp] theorem State.serveByte_mem : (s.serveByte b rest bs).mem = s.mem := rfl
@[simp] theorem State.serveByte_input : (s.serveByte b rest bs).input = rest := rfl
@[simp] theorem State.serveByte_output : (s.serveByte b rest bs).output = s.output ++ bs := rfl
@[simp] theorem State.serveByte_arrivals : (s.serveByte b rest bs).arrivals = s.arrivals := rfl
@[simp] theorem State.serveByte_params : (s.serveByte b rest bs).params = s.params := rfl

theorem State.serveByte_r0_toNat : ((s.serveByte b rest bs).reg .r0).toNat = b.toNat := by
  rw [State.serveByte_reg_r0, zext8_toNat]

theorem State.serveByte_cond_eq : (s.serveByte b rest bs).cond = condOf ((s.serveByte b rest bs).reg .r0) := by
  rw [State.serveByte_cond, State.serveByte_reg_r0]

theorem State.serveByte_cond_ne_negative : (s.serveByte b rest bs).cond ≠ .negative := by
  rw [State.serveByte_cond]
  exact condOf_zext8_ne_negative b

theorem State.serveByte_sameControl : SameControl s (s.serveByte b rest bs) := ⟨rfl, rfl, rfl⟩

theorem State.serveByte_sameMem : SameMem s (s.serveByte b rest bs) := fun _ => rfl

end

theorem eq_of_waitsForInput {i : Instr} (h : waitsForInput i = true) : i = .trapGetc ∨ i = .trapIn := by
  cases i with
  | trapGetc => exact .inl rfl
  | trapIn => exact .inr rfl
  | _ => exact Bool.noConfusion h

theorem exec_trapGetc (s : State) : exec .trapGetc s = s.withByte fun b t => t.link.receive b := rfl

theorem exec_trapIn (s : State) :
    exec .trapIn s = s.withByte fun b t => ((t.link.emit s.params.inPrompt).emit [b]).receive b := rfl

section
variable {s : State} {b : Byte} {rest : List Byte}

theorem exec_trapGetc_of_byte (h : s.input = b :: rest) : exec .trapGetc s = .next (s.serveByte b rest []) := by
  rw [exec_trapGetc, State.withByte_byte h, State.serveByte, State.emit_nil]

theorem exec_trapIn_of_byte (h : s.input = b :: rest) :
    exec .trapIn s = .next (s.serveByte b rest (s.params.inPrompt ++ [b])) := by
  rw [exec_trapIn, State.withByte_byte h, State.serveByte, State.emit_emit]

theorem exec_trapGetc_of_empty (h : s.input = []) : exec .trapGetc s = .next s.hold := by
  rw [exec_trapGetc, State.withByte_empty h]

theorem exec_trapIn_of_empty (h : s.input = []) : exec .trapIn s = .next s.hold := by
  rw [exec_trapIn, State.withByte_empty h]

end

/-- Both services serve the byte when there is one; they differ in the bytes they write. -/
theorem exec_of_waits_byte {i : Instr} {s : State} {b : Byte} {rest : List Byte} (hwait : waitsForInput i = true)
    (hin : s.input = b :: rest) : ∃ bs, exec i s = .next (s.serveByte b rest bs) := by
  obtain rfl | rfl := eq_of_waitsForInput hwait
  · exact ⟨_, exec_trapGetc_of_byte hin⟩
  · exact ⟨_, exec_trapIn_of_byte hin⟩

/-- Without a byte both are held. -/
theorem exec_of_waits_empty {i : Instr} {s : State} (hwait : waitsForInput i = true) (hin : s.input = []) :
    exec i s = .next s.hold := by
  obtain rfl | rfl := eq_of_waitsForInput hwait
  · exact exec_trapGetc_of_empty hin
  · exact exec_trapIn_of_empty hin

/-- Settles O34: GETC serves the byte and writes nothing. -/
theorem getcReadsOneByte : Obligations.GetcReadsOneByte := by
  intro s b rest hin
  exact ⟨_, exec_trapGetc_of_byte hin, s.serveByte_r0_toNat b rest _, s.serveByte_reg_r7 b rest _,
    fun _ => s.serveByte_reg_ne b rest _, s.serveByte_cond_eq b rest _, s.serveByte_cond_ne_negative b rest _,
    s.serveByte_sameControl b rest _, s.serveByte_sameMem b rest _, rfl, List.append_nil _, rfl⟩

/-- Settles O35: IN serves the byte and writes the prompt and the byte. -/
theorem inPromptsAndEchoesOneByte : Obligations.InPromptsAndEchoesOneByte := by
  intro s b rest hin
  exact ⟨_, exec_trapIn_of_byte hin, s.serveByte_r0_toNat b rest _, s.serveByte_reg_r7 b rest _,
    fun _ => s.serveByte_reg_ne b rest _, s.serveByte_cond_eq b rest _, s.serveByte_cond_ne_negative b rest _,
    s.serveByte_sameControl b rest _, s.serveByte_sameMem b rest _, rfl, (List.append_assoc _ _ _).symm, rfl⟩

/-! ### The string loop (R188, R189, R195) -/

/-- The loop's own equation at the word that ends the string. -/
theorem scanString_of_zero (bytes : Word → List Byte) {a : Word} {s : State} (hword : (s.memRead a).1 = 0) :
    scanString bytes a s = (s.memRead a).2 := by
  rw [scanString, scanBound, scanLoop_succ, if_pos hword]

theorem scanString_eq (bytes : Word → List Byte) (a : Word) (s : State) : scanString bytes a s =
    if (s.memRead a).1 = 0 then (s.memRead a).2
    else scanString bytes (a + 1) ((s.memRead a).2.emit (bytes (s.memRead a).1)) := by
  by_cases hword : (s.memRead a).1 = 0
  · rw [if_pos hword, scanString_of_zero bytes hword]
  · rw [if_neg hword, scanString_of_ne_zero hword]

/-- Reads beyond the bound change nothing. -/
theorem scanLoop_of_bound_le (bytes : Word → List Byte) (n : Nat) : ∀ {a : Word} {s : State}, scanBound a s ≤ n →
    scanLoop bytes n a s = scanString bytes a s := by
  induction n with
  | zero => exact fun h => absurd h (Nat.not_succ_le_zero _)
  | succ n ih =>
    intro a s hbound
    rw [scanLoop_succ, scanString_eq bytes a s]
    by_cases hword : (s.memRead a).1 = 0
    · rw [if_pos hword, if_pos hword]
    · rw [scanBound_eq_succ hword (bytes (s.memRead a).1)] at hbound
      rw [if_neg hword, if_neg hword, ih (Nat.le_of_succ_le_succ hbound)]

/-- Once round the memory for each byte of `In` and once more is never too few. -/
theorem scanBound_le (a : Word) (s : State) : scanBound a s ≤ (s.input.length + 1) * Config.memWords := by
  have hdist : (s.params.kbsrAddr - a).toNat < Config.memWords := (s.params.kbsrAddr - a).isLt
  rw [scanBound, Nat.succ_mul]
  omega

/-- PUTS reads R0 after the link, which leaves it as it was. -/
theorem exec_trapPuts (s : State) : exec .trapPuts s = .next (scanString putsBytes (s.reg .r0) s.link) :=
  congrArg (fun a => Host.Outcome.next (scanString putsBytes a s.link)) s.link_reg_r0

theorem exec_trapPutsp (s : State) : exec .trapPutsp s = .next (scanString putspBytes (s.reg .r0) s.link) :=
  congrArg (fun a => Host.Outcome.next (scanString putspBytes a s.link)) s.link_reg_r0

/-- Settles O38: the two services by definition, the loop's equation, and reads beyond its bound. -/
theorem stringServicesRunTheirLoop : Obligations.StringServicesRunTheirLoop :=
  ⟨exec_trapPuts, exec_trapPutsp, scanString_eq,
    fun bytes a s n hn => scanLoop_of_bound_le bytes n ((scanBound_le a s).trans hn)⟩

/-- A string depends on the memory and on where KBSR_ADDR is. -/
theorem StringAt.congr {s t : State} (hmem : t.mem = s.mem) (hparams : t.params = s.params) (ws : List Word) :
    ∀ {a : Word}, StringAt s a ws → StringAt t a ws := by
  induction ws with
  | nil =>
    rintro a ⟨hne, hend⟩
    exact ⟨hparams ▸ hne, hmem ▸ hend⟩
  | cons w ws ih =>
    rintro a ⟨hne, hw, hread, htail⟩
    exact ⟨hparams ▸ hne, hw, hmem ▸ hread, ih htail⟩

/-- On a string away from KBSR_ADDR the loop polls nothing: it writes the bytes of each word. -/
theorem scanString_of_stringAt (bytes : Word → List Byte) (ws : List Word) : ∀ {a : Word} {s : State}, StringAt s a ws →
    scanString bytes a s = s.emit (ws.flatMap bytes) := by
  induction ws with
  | nil =>
    rintro a s ⟨hne, hend⟩
    have hread := State.memRead_ne hne
    rw [scanString_of_zero bytes ((congrArg Prod.fst hread).trans hend), hread, List.flatMap_nil, State.emit_nil]
  | cons w ws ih =>
    rintro a s ⟨hne, hw, hword, htail⟩
    have hread : s.memRead a = (w, s) := hword ▸ State.memRead_ne hne
    have htail' : StringAt (s.emit (bytes w)) (a + 1) ws := StringAt.congr (s.emit_mem _) (s.emit_params _) ws htail
    rw [scanString_eq, hread, if_neg hw, ih htail', State.emit_emit, List.flatMap_cons]

/-- A string service on such a string, after the link. -/
theorem scanString_linksAndEmits (bytes : Word → List Byte) {ws : List Word} {s : State}
    (h : StringAt s (s.reg .r0) ws) : LinksAndEmits (ws.flatMap bytes) s (scanString bytes (s.reg .r0) s.link) := by
  rw [scanString_of_stringAt bytes ws (h.congr s.link_mem s.link_params ws)]
  exact s.link_emit_linksAndEmits _

/-- Settles O39: `scanString_linksAndEmits` for one byte from each word. -/
theorem putsWritesTheString : Obligations.PutsWritesTheString := by
  intro s ws h
  refine ⟨_, exec_trapPuts s, ?_⟩
  rw [List.map_eq_flatMap]
  exact scanString_linksAndEmits putsBytes h

/-- Settles O40: `scanString_linksAndEmits` for one or two bytes from each word. -/
theorem putspWritesThePackedString : Obligations.PutspWritesThePackedString :=
  fun s _ h => ⟨_, exec_trapPutsp s, scanString_linksAndEmits putspBytes h⟩

end Sys2Proof.Machine

/-! Proofs for 44_reserved.md and for the step of 60_exceptions.md section 7: the no-ops, the fetch, and a held step. -/

namespace Sys2Proof.Machine

/-! ### RTI and RES (R210, R211) -/

@[simp] theorem exec_rti (s : State) : exec .rti s = .next s := rfl

@[simp] theorem exec_res (s : State) : exec .res s = .next s := rfl

/-- Settles O44: the decoder's rows and the two meanings. -/
theorem undefinedOpcodesAreNoOps : Obligations.UndefinedOpcodesAreNoOps :=
  ⟨fun _ _ => decode_of_rti, fun _ _ => decode_of_res, exec_rti, exec_res⟩

/-! ### The fetch (R26, R228) -/

theorem State.fetch_eq (s : State) : s.fetch = ((s.memRead s.pc).1, { (s.memRead s.pc).2 with pc := s.pc + 1 }) := by
  rw [State.fetch, State.memRead_state, State.busAction_pc]

/-- Away from KBSR_ADDR the fetch reads the word at `pc` and increments `pc`. -/
theorem State.fetch_of_ne {s : State} (h : s.pc ≠ s.params.kbsrAddr) :
    s.fetch = (s.mem.readWord s.pc, { s with pc := s.pc + 1 }) := by
  rw [State.fetch_eq, State.memRead_ne h]

/-- Settles O45: the step's definition, and the fetch as a bus read at `pc`, which polls at KBSR_ADDR only. -/
theorem stepRunsDecodedInstruction : Obligations.StepRunsDecodedInstruction := by
  refine ⟨?step, State.fetch_eq, ?poll, fun _ hne => State.fetch_of_ne hne, fun _ => rfl⟩
  case step =>
    rintro s _ hrun rfl
    exact step_of_running hrun
  case poll =>
    intro s hpc
    refine ⟨?_, ?_, ?_⟩
    · rw [State.fetch_eq, hpc]
    · rw [State.fetch_mem, hpc, State.busAction_kbsr]
    · rw [State.fetch_input, hpc, State.busAction_kbsr, State.kbdPoll_input]

/-- The zero word at an opcode map whose number 0 is BR: no mask bit is set. -/
theorem decode_zero {p : Params} (h : p.opcodeAt 0 = .br) : decode p 0x0000 = .br 0b000 0 := decode_of_br h

/-- Settles O48: the fetched zero word is a BR without mask bits, which leaves the incremented PC. -/
theorem zeroWordStepsToNextAddress : Obligations.ZeroWordStepsToNextAddress := by
  intro s hop hrun hne hword
  have hread : s.hostTurn.mem.readWord s.hostTurn.pc = 0x0000 := by rw [State.hostTurn_mem, State.hostTurn_pc, hword]
  have hfetch : s.hostTurn.fetch = (0x0000, { s.hostTurn with pc := s.pc + 1 }) := by
    rw [State.fetch_of_ne (by rwa [State.hostTurn_pc, State.hostTurn_params]), hread, State.hostTurn_pc]
  rw [step_of_running hrun, hfetch, decode_zero hop]
  exact exec_br_of_eq_zero 0 BitVec.zero_and

/-! ### A held step (R183) -/

/-- The zero word is neither GETC nor IN, whatever the opcode map: as a TRAP its vector is 0x00. -/
theorem waitsForInput_decode_zero (p : Params) : waitsForInput (decode p 0x0000) = false := by
  by_cases hop : opcodeOf p 0x0000 = .trap
  · rw [decode_of_trap hop]
    rfl
  · refine Bool.eq_false_iff.mpr fun hwait => hop ?_
    rw [← opcode_decode]
    obtain h | h := eq_of_waitsForInput hwait <;> rw [h] <;> rfl

/-- A poll with `In` empty fetches the zero word. -/
theorem State.fetch_word_of_poll_empty {s : State} (hpc : s.pc = s.params.kbsrAddr) (hin : s.input = []) :
    s.fetch.1 = 0x0000 := by
  rw [State.fetch_eq, hpc, State.memRead_kbsr, State.kbdPoll_mem_empty hin]
  exact s.mem.readWord_write_self s.params.kbsrAddr 0x0000

theorem State.hold_increment (s : State) : State.hold { s with pc := s.pc + 1 } = s := by
  rw [State.hold, BitVec.add_sub_cancel]

/-- Settles O36: a held step undoes the increment of `pc`; its fetch polled nothing, since a poll with `In` empty
fetches the zero word, which waits for no byte. -/
theorem inputServicesHoldWithoutByte : Obligations.InputServicesHoldWithoutByte := by
  refine ⟨fun s hin => ⟨exec_trapGetc_of_empty hin, exec_trapIn_of_empty hin⟩, ?step⟩
  case step =>
    intro s hrun hin hwait
    have hne : s.hostTurn.pc ≠ s.hostTurn.params.kbsrAddr := by
      intro hpc
      rw [State.fetch_word_of_poll_empty hpc hin, waitsForInput_decode_zero] at hwait
      exact Bool.noConfusion hwait
    have hfetch := State.fetch_of_ne hne
    have hin' : s.hostTurn.fetch.2.input = [] := hfetch ▸ hin
    rw [step_of_running hrun, exec_of_waits_empty hwait hin', hfetch, State.hold_increment]

end Sys2Proof.Machine

/-! Proofs for the whole-machine rules: each instruction is a sequence of elementary moves, which the spec's tables of
who writes what allow it, or a held step; what every allowed move keeps, the instruction keeps. -/

namespace Sys2Proof.Machine

/-! ### The elementary moves an instruction is allowed -/

/-- One change of the state, allowed to `i` by the tables of 10_state.md and 20_memory.md. -/
inductive Move (i : Instr) : State → State → Prop
  | write {s : State} {r : Reg} (v : Word) : r ∈ writtenRegs i → Move i s (s.setReg r v)
  | flags {s : State} {r : Reg} : flagSource i = some r → Move i s (s.setcc r)
  | jump {s : State} (target : Word) : transfersControl i = true → Move i s (s.setPc target)
  | store {s : State} (a v : Word) : storesWord i = true → Move i s (s.memWrite a v)
  | read {s : State} (a : Word) : readsMemory i = true → Move i s (s.busAction a)
  | take {s : State} {b : Byte} {rest : List Byte} : waitsForInput i = true → s.input = b :: rest →
      Move i s { s with input := rest }
  | emit {s : State} (bs : List Byte) : writesOutput i = true → Move i s (s.emit bs)
  | halt {s : State} : i = .trapHalt → Move i s (s.withRunning false)

/-- Any number of allowed moves, one after another. -/
abbrev Moves (i : Instr) : State → State → Prop := Relation.ReflTransGen (Move i)

section
variable {i : Instr} {s t : State}

theorem Moves.writeResult {dr : Reg} (hs : Moves i s t) (hreg : dr ∈ writtenRegs i) (hflag : flagSource i = some dr)
    (v : Word) : Moves i s (t.writeResult dr v) :=
  (hs.tail (.write v hreg)).tail (.flags hflag)

theorem Moves.link (hs : Moves i s t) (hreg : .r7 ∈ writtenRegs i) : Moves i s t.link := hs.tail (.write t.pc hreg)

theorem Moves.load {dr : Reg} (hs : Moves i s t) (hread : readsMemory i = true) (hreg : dr ∈ writtenRegs i)
    (hflag : flagSource i = some dr) (a : Word) : Moves i s (t.load dr a) :=
  Moves.writeResult (hs.tail (.read a hread)) hreg hflag _

/-- The string loop reads and writes to the output, and does nothing else. -/
theorem Moves.scanString (hs : Moves i s t) (hread : readsMemory i = true) (hout : writesOutput i = true)
    (bytes : Word → List Byte) (a : Word) : Moves i s (scanString bytes a t) :=
  scanString_keeps (Moves i s) (fun _ b hu => hu.tail (.read b hread)) (fun _ bs hu => hu.tail (.emit bs hout)) bytes a
    t hs

end

/-- What an instruction does: a held step, or moves that the tables allow it. In particular it completes. -/
theorem exec_spec {i : Instr} (hwf : i.wf = true) (s : State) :
    (waitsForInput i = true ∧ s.input = [] ∧ exec i s = .next s.hold) ∨ ∃ t, exec i s = .next t ∧ Moves i s t := by
  have start : Moves i s s := .refl
  cases i with
  | br mask off =>
    by_cases hbits : mask &&& condBits s.params s.cond = 0
    · exact .inr ⟨_, exec_br_of_eq_zero off hbits, start⟩
    · exact .inr ⟨_, exec_br_of_ne_zero off hbits, start.tail (.jump _ rfl)⟩
  | addReg dr sr1 sr2 =>
    exact .inr ⟨_, exec_addReg dr sr1 sr2 s, start.writeResult (List.mem_singleton_self dr) rfl _⟩
  | addImm dr sr1 imm =>
    exact .inr ⟨_, exec_addImm dr sr1 imm s, start.writeResult (List.mem_singleton_self dr) rfl _⟩
  | ld dr off => exact .inr ⟨_, exec_ld dr off s, start.load rfl (List.mem_singleton_self dr) rfl _⟩
  | st sr off => exact .inr ⟨_, exec_st sr off s, start.tail (.store _ _ rfl)⟩
  | jsr off => exact .inr ⟨_, exec_jsr s off, (start.link (List.mem_singleton_self _)).tail (.jump _ rfl)⟩
  | jsrr base => exact .inr ⟨_, exec_jsrr s base, (start.link (List.mem_singleton_self _)).tail (.jump _ rfl)⟩
  | andReg dr sr1 sr2 =>
    exact .inr ⟨_, exec_andReg dr sr1 sr2 s, start.writeResult (List.mem_singleton_self dr) rfl _⟩
  | andImm dr sr1 imm =>
    exact .inr ⟨_, exec_andImm dr sr1 imm s, start.writeResult (List.mem_singleton_self dr) rfl _⟩
  | ldr dr base off => exact .inr ⟨_, exec_ldr dr base off s, start.load rfl (List.mem_singleton_self dr) rfl _⟩
  | str sr base off => exact .inr ⟨_, exec_str sr base off s, start.tail (.store _ _ rfl)⟩
  | rti => exact .inr ⟨_, exec_rti s, start⟩
  | not dr sr => exact .inr ⟨_, exec_not dr sr s, start.writeResult (List.mem_singleton_self dr) rfl _⟩
  | ldi dr off =>
    exact .inr ⟨_, exec_ldi dr off s, Moves.load (start.tail (.read _ rfl)) rfl (List.mem_singleton_self dr) rfl _⟩
  | sti sr off => exact .inr ⟨_, exec_sti sr off s, (start.tail (.read _ rfl)).tail (.store _ _ rfl)⟩
  | jmp base => exact .inr ⟨_, exec_jmp s base, start.tail (.jump _ rfl)⟩
  | res => exact .inr ⟨_, exec_res s, start⟩
  | lea dr off => exact .inr ⟨_, exec_lea dr off s, start.writeResult (List.mem_singleton_self dr) rfl _⟩
  | trapGetc =>
    cases hin : s.input with
    | nil => exact .inl ⟨rfl, rfl, exec_trapGetc_of_empty hin⟩
    | cons b rest =>
      have linked : Moves .trapGetc s (State.link { s with input := rest }) :=
        Moves.link (start.tail (.take rfl hin)) (by decide)
      refine .inr ⟨_, exec_trapGetc_of_byte hin, ?_⟩
      rw [State.serveByte, State.emit_nil]
      exact linked.writeResult (by decide) rfl _
  | trapOut => exact .inr ⟨_, exec_trapOut s, (start.link (List.mem_singleton_self _)).tail (.emit _ rfl)⟩
  | trapPuts =>
    exact .inr ⟨_, exec_trapPuts s, (start.link (List.mem_singleton_self _)).scanString rfl rfl putsBytes _⟩
  | trapIn =>
    cases hin : s.input with
    | nil => exact .inl ⟨rfl, rfl, exec_trapIn_of_empty hin⟩
    | cons b rest =>
      have linked : Moves .trapIn s (State.link { s with input := rest }) :=
        Moves.link (start.tail (.take rfl hin)) (by decide)
      exact .inr ⟨_, exec_trapIn_of_byte hin, Moves.writeResult (linked.tail (.emit _ rfl)) (by decide) rfl _⟩
  | trapPutsp =>
    exact .inr ⟨_, exec_trapPutsp s, (start.link (List.mem_singleton_self _)).scanString rfl rfl putspBytes _⟩
  | trapHalt =>
    exact .inr ⟨_, exec_trapHalt s, ((start.link (List.mem_singleton_self _)).tail (.emit _ rfl)).tail (.halt rfl)⟩
  | trap v =>
    exact .inr ⟨_, exec_trap_of_not_service (wf_trap_iff.mp hwf) s, start.link (List.mem_singleton_self _)⟩

/-- What every allowed move keeps, and a held step keeps, the instruction keeps. -/
theorem exec_keeps {i : Instr} {s t : State} (P : State → Prop) (hwf : i.wf = true) (h : exec i s = .next t)
    (hmove : ∀ u v, Move i u v → P u → P v) (hhold : waitsForInput i = true → s.input = [] → P s.hold) (hs : P s) :
    P t := by
  obtain ⟨hwait, hin, hheld⟩ | ⟨u, hnext, hmoves⟩ := exec_spec hwf s
  · obtain rfl : s.hold = t := Host.Outcome.next.inj (hheld.symm.trans h)
    exact hhold hwait hin
  · obtain rfl : u = t := Host.Outcome.next.inj (hnext.symm.trans h)
    clear hnext h
    induction hmoves with
    | refl => exact hs
    | tail _ hmv ih => exact hmove _ _ hmv ih

/-! ### What one move leaves unchanged -/

section
variable {i : Instr} {s t : State}

theorem Move.reg_of_not_mem (h : Move i s t) {r : Reg} (hr : r ∉ writtenRegs i) : t.reg r = s.reg r := by
  cases h with
  | write v hmem => exact s.setReg_reg_ne v fun heq => hr (heq ▸ hmem)
  | read a _ => exact s.busAction_reg a r
  | _ => rfl

theorem Move.cond_of_none (h : Move i s t) (hflag : flagSource i = none) : t.cond = s.cond := by
  cases h with
  | flags hsome => rw [hflag] at hsome; cases hsome
  | read a _ => exact s.busAction_cond a
  | _ => rfl

theorem Move.pc_of_not_transfer (h : Move i s t) (htransfer : transfersControl i = false) : t.pc = s.pc := by
  cases h with
  | jump target hjump => rw [htransfer] at hjump; cases hjump
  | read a _ => exact s.busAction_pc a
  | _ => rfl

theorem Move.running_of_ne_halt (h : Move i s t) (hne : i ≠ .trapHalt) : t.running = s.running := by
  cases h with
  | halt heq => exact absurd heq hne
  | read a _ => exact s.busAction_running a
  | _ => rfl

theorem Move.running_of_false (h : Move i s t) (hstop : s.running = false) : t.running = false := by
  cases h with
  | halt _ => rfl
  | read a _ => exact (s.busAction_running a).trans hstop
  | _ => exact hstop

theorem Move.params_eq (h : Move i s t) : t.params = s.params := by
  cases h with
  | read a _ => exact s.busAction_params a
  | _ => rfl

theorem Move.arrivals_eq (h : Move i s t) : t.arrivals = s.arrivals := by
  cases h with
  | read a _ => exact s.busAction_arrivals a
  | _ => rfl

theorem Move.output_append (h : Move i s t) : ∃ bs, t.output = s.output ++ bs := by
  cases h with
  | emit bs _ => exact ⟨bs, rfl⟩
  | read a _ => exact ⟨[], by rw [State.busAction_output, List.append_nil]⟩
  | _ => exact ⟨[], (List.append_nil _).symm⟩

theorem Move.output_of_not_writer (h : Move i s t) (hout : writesOutput i = false) : t.output = s.output := by
  cases h with
  | emit bs hemit => rw [hout] at hemit; cases hemit
  | read a _ => exact s.busAction_output a
  | _ => rfl

theorem Move.input_append (h : Move i s t) : ∃ taken, s.input = taken ++ t.input := by
  cases h with
  | take _ hin => exact ⟨[_], hin⟩
  | read a _ => exact s.busAction_input a
  | _ => exact ⟨[], rfl⟩

theorem Move.input_of_not_reader (h : Move i s t) (hwait : waitsForInput i = false) (hread : readsMemory i = false) :
    t.input = s.input := by
  cases h with
  | take htake _ => rw [hwait] at htake; cases htake
  | read a hr => rw [hread] at hr; cases hr
  | _ => rfl

theorem Move.sameMemButDevice (h : Move i s t) (hstore : storesWord i = false) : SameMemButDevice s t := by
  cases h with
  | store a v hst => rw [hstore] at hst; cases hst
  | read a _ => exact fun _ h1 h2 h3 h4 => s.busAction_readByte a h1 h2 h3 h4
  | _ => exact fun _ _ _ _ _ => rfl

theorem Move.mem_of_not_reader (h : Move i s t) (hstore : storesWord i = false) (hread : readsMemory i = false) :
    t.mem = s.mem := by
  cases h with
  | store a v hst => rw [hstore] at hst; cases hst
  | read a hr => rw [hread] at hr; cases hr
  | _ => rfl

theorem Move.wf_mem (h : Move i s t) (hs : s.mem.wf = true) : t.mem.wf = true := by
  cases h with
  | store a v _ => exact Memory.wf_writeWord a v hs
  | read a _ => exact State.wf_busAction a hs
  | _ => exact hs

end

/-! ### What an instruction leaves unchanged -/

section
variable {i : Instr} {s t : State} (hwf : i.wf = true) (h : exec i s = .next t)
include hwf h

theorem exec_reg_of_not_mem {r : Reg} (hr : r ∉ writtenRegs i) : t.reg r = s.reg r :=
  exec_keeps (fun u => u.reg r = s.reg r) hwf h (fun _ _ hm hu => (hm.reg_of_not_mem hr).trans hu) (fun _ _ => rfl) rfl

theorem exec_cond_of_none (hflag : flagSource i = none) : t.cond = s.cond :=
  exec_keeps (fun u => u.cond = s.cond) hwf h (fun _ _ hm hu => (hm.cond_of_none hflag).trans hu) (fun _ _ => rfl) rfl

/-- Apart from the transfers of control only a held step moves `pc` (R26, R183). -/
theorem exec_pc_of_not_transfer (htransfer : transfersControl i = false) :
    t.pc = s.pc ∨ waitsForInput i = true ∧ s.input = [] ∧ t.pc = s.pc - 1 := by
  refine exec_keeps (fun u => u.pc = s.pc ∨ waitsForInput i = true ∧ s.input = [] ∧ u.pc = s.pc - 1) hwf h ?move
    (fun hwait hin => .inr ⟨hwait, hin, rfl⟩) (.inl rfl)
  case move =>
    intro u v hm hu
    rwa [hm.pc_of_not_transfer htransfer]

theorem exec_running_of_ne_halt (hne : i ≠ .trapHalt) : t.running = s.running :=
  exec_keeps (fun u => u.running = s.running) hwf h (fun _ _ hm hu => (hm.running_of_ne_halt hne).trans hu)
    (fun _ _ => rfl) rfl

theorem exec_running_of_false (hstop : s.running = false) : t.running = false :=
  exec_keeps (fun u => u.running = false) hwf h (fun _ _ hm hu => hm.running_of_false hu) (fun _ _ => hstop) hstop

theorem exec_params : t.params = s.params :=
  exec_keeps (fun u => u.params = s.params) hwf h (fun _ _ hm hu => hm.params_eq.trans hu) (fun _ _ => rfl) rfl

theorem exec_arrivals : t.arrivals = s.arrivals :=
  exec_keeps (fun u => u.arrivals = s.arrivals) hwf h (fun _ _ hm hu => hm.arrivals_eq.trans hu) (fun _ _ => rfl) rfl

theorem exec_output_append : ∃ bs, t.output = s.output ++ bs := by
  refine exec_keeps (fun u => ∃ bs, u.output = s.output ++ bs) hwf h ?move (fun _ _ => ⟨[], (List.append_nil _).symm⟩)
    ⟨[], (List.append_nil _).symm⟩
  case move =>
    rintro u v hm ⟨bs, hbs⟩
    obtain ⟨cs, hcs⟩ := hm.output_append
    exact ⟨bs ++ cs, by rw [hcs, hbs, List.append_assoc]⟩

theorem exec_output_of_not_writer (hout : writesOutput i = false) : t.output = s.output :=
  exec_keeps (fun u => u.output = s.output) hwf h (fun _ _ hm hu => (hm.output_of_not_writer hout).trans hu)
    (fun _ _ => rfl) rfl

theorem exec_input_append : ∃ taken, s.input = taken ++ t.input := by
  refine exec_keeps (fun u => ∃ taken, s.input = taken ++ u.input) hwf h ?move (fun _ _ => ⟨[], rfl⟩) ⟨[], rfl⟩
  case move =>
    rintro u v hm ⟨taken, htaken⟩
    obtain ⟨more, hmore⟩ := hm.input_append
    exact ⟨taken ++ more, by rw [htaken, hmore, List.append_assoc]⟩

theorem exec_input_of_not_reader (hwait : waitsForInput i = false) (hread : readsMemory i = false) :
    t.input = s.input :=
  exec_keeps (fun u => u.input = s.input) hwf h (fun _ _ hm hu => (hm.input_of_not_reader hwait hread).trans hu)
    (fun _ _ => rfl) rfl

/-- The device words are the same two from move to move, because the parameters are. -/
theorem exec_sameMemButDevice (hstore : storesWord i = false) : SameMemButDevice s t := by
  refine (exec_keeps (fun u => u.params = s.params ∧ SameMemButDevice s u) hwf h ?move
    (fun _ _ => ⟨rfl, fun _ _ _ _ _ => rfl⟩) ⟨rfl, fun _ _ _ _ _ => rfl⟩).2
  case move =>
    rintro u v hm ⟨hparams, hmem⟩
    have hmove := hm.sameMemButDevice hstore
    rw [SameMemButDevice, hparams] at hmove
    exact ⟨hm.params_eq.trans hparams, fun k h1 h2 h3 h4 => (hmove k h1 h2 h3 h4).trans (hmem k h1 h2 h3 h4)⟩

theorem exec_sameMem (hstore : storesWord i = false) (hread : readsMemory i = false) : SameMem s t :=
  exec_keeps (SameMem s) hwf h
    (fun _ _ hm hu k => (congrArg (·.readByte k) (hm.mem_of_not_reader hstore hread)).trans (hu k))
    (fun _ _ _ => rfl) fun _ => rfl

theorem exec_wf_mem (hs : s.mem.wf = true) : t.mem.wf = true :=
  exec_keeps (fun u => u.mem.wf = true) hwf h (fun _ _ hm hu => hm.wf_mem hu) (fun _ _ => hs) hs

end

/-- The writers of `cond` end in the write of a result, unless the step is held. -/
theorem exec_cond_of_some {i : Instr} {s t : State} {r : Reg} (h : exec i s = .next t) (hflag : flagSource i = some r) :
    t.cond = condOf (t.reg r) ∨ waitsForInput i = true ∧ s.input = [] ∧ t.cond = s.cond := by
  have written {u : State} {v : Word} (ht : t = u.writeResult r v) : t.cond = condOf (t.reg r) := by
    rw [ht, State.writeResult_cond, State.writeResult_reg_self]
  have served (b rest) := exec_of_waits_byte (i := i) (s := s) (b := b) (rest := rest)
  cases i with
  | addReg _ _ _ | addImm _ _ _ | andReg _ _ _ | andImm _ _ _ | not _ _ | ld _ _ | ldi _ _ | ldr _ _ _ | lea _ _ =>
    cases hflag
    cases h
    exact .inl (written rfl)
  | trapGetc | trapIn =>
    cases hflag
    cases hin : s.input with
    | nil =>
      rw [exec_of_waits_empty rfl hin] at h
      cases h
      exact .inr ⟨rfl, rfl, rfl⟩
    | cons b rest =>
      obtain ⟨bs, hserve⟩ := served b rest rfl hin
      rw [hserve] at h
      cases h
      exact .inl (s.serveByte_cond_eq b rest bs)
  | _ => cases hflag

/-- A form of TRAP that is never decoded means what its vector decodes to (R90, R181; log entry 18). -/
theorem exec_decodeTrap (v : BitVec 8) (s : State) : exec (decodeTrap v) s = exec (.trap v) s := by
  cases hv : Config.serviceVectors.contains v with
  | false => rw [decodeTrap_of_not_service hv]
  | true =>
    have hmem : v ∈ [0x20, 0x21, 0x22, 0x23, 0x24, 0x25] := List.contains_iff_mem.mp hv
    fin_cases hmem <;> rfl

/-- So every term of `Instr` means what a well-formed one means. -/
theorem exists_wf_exec (i : Instr) : ∃ j : Instr, j.wf = true ∧ ∀ s, exec i s = exec j s := by
  cases i with
  | trap v => exact ⟨decodeTrap v, decodeTrap_wf v, fun s => (exec_decodeTrap v s).symm⟩
  | _ => exact ⟨_, rfl, fun _ => rfl⟩

end Sys2Proof.Machine

/-! Proofs of the whole-machine rules themselves, of the step's invariants, and that the core neither reads its output
nor its run bit. -/

namespace Sys2Proof.Machine

/-! ### Registers, flags, `pc`, memory and streams (R22, R26, R30, R36, R37, R53, R55) -/

/-- Settles O49: no allowed move writes another register. -/
theorem onlyNamedRegistersAreWritten : Obligations.OnlyNamedRegistersAreWritten :=
  fun _ _ _ _ hwf h hr => exec_reg_of_not_mem hwf h hr

/-- Settles O50: without a flag source no move writes `cond`; with one the instruction ends in the write of its result.
-/
theorem flagsWrittenOnlyByTheTable : Obligations.FlagsWrittenOnlyByTheTable :=
  fun _ _ _ hwf h => ⟨exec_cond_of_none hwf h, fun _ hflag => exec_cond_of_some h hflag⟩

/-- Settles O51: no other move changes `pc`, and a held step puts it back. -/
theorem pcChangedOnlyByControlTransfer : Obligations.PcChangedOnlyByControlTransfer :=
  fun _ _ _ hwf h htransfer => exec_pc_of_not_transfer hwf h htransfer

/-- Settles O52: without stores the moves that touch memory are polls, and those belong to the readers. -/
theorem memoryWrittenOnlyByStoresAndPoll : Obligations.MemoryWrittenOnlyByStoresAndPoll :=
  fun _ _ _ hwf h hstore => ⟨exec_sameMemButDevice hwf h hstore, exec_sameMem hwf h hstore⟩

/-- Settles O53: each move only appends to the output and only takes from the front of `In`. -/
theorem streamsMoveOneWay : Obligations.StreamsMoveOneWay :=
  fun _ _ _ hwf h => ⟨exec_output_append hwf h, exec_output_of_not_writer hwf h, exec_input_append hwf h,
    exec_arrivals hwf h⟩

/-! ### The step (R228) -/

theorem exec_completes {i : Instr} (hwf : i.wf = true) (s : State) : ∃ t, exec i s = .next t := by
  obtain ⟨_, _, hheld⟩ | ⟨t, hnext, _⟩ := exec_spec hwf s
  · exact ⟨s.hold, hheld⟩
  · exact ⟨t, hnext⟩

/-- A step that answers is that of a running machine, and runs a well-formed instruction. -/
theorem step_cases {s t : State} (h : step s = .next t) : s.running = true ∧
    ∃ i, decode s.params s.hostTurn.fetch.1 = i ∧ i.wf = true ∧ exec i s.hostTurn.fetch.2 = .next t := by
  cases hrun : s.running with
  | false => rw [step_of_not_running hrun] at h; cases h
  | true => exact ⟨rfl, _, rfl, decode_wf _ _, step_of_running hrun ▸ h⟩

/-- Settles O46: the decoded instruction is well-formed, and each such one completes. -/
theorem runningMachineAlwaysSteps : Obligations.RunningMachineAlwaysSteps := by
  intro s hrun
  rw [State.CanStep, step_of_running hrun]
  exact exec_completes (decode_wf _ _) _

/-! ### The parameters and the invariant (R7; log entries 16, 26) -/

theorem step_params {s t : State} (h : step s = .next t) : t.params = s.params := by
  obtain ⟨_, i, _, hwf, hexec⟩ := step_cases h
  rw [exec_params hwf hexec, State.fetch_params, State.hostTurn_params]

theorem step_wf_mem {s t : State} (hs : s.mem.wf = true) (h : step s = .next t) : t.mem.wf = true := by
  obtain ⟨_, i, _, hwf, hexec⟩ := step_cases h
  refine exec_wf_mem hwf hexec ?_
  rw [State.fetch_mem]
  exact State.wf_busAction _ (s.hostTurn_mem ▸ hs)

theorem step_inv {s t : State} (hs : s.Inv) (h : step s = .next t) : t.Inv := by
  obtain ⟨hmem, hvalid⟩ := hs
  exact ⟨step_wf_mem hmem h, step_params h ▸ hvalid⟩

/-- Settles O56: the host's move leaves the memory, the fetch and each move of an instruction keep its canonical form,
and nothing changes the parameters. -/
theorem stepKeepsMemoryCanonical : Obligations.StepKeepsMemoryCanonical := fun _ _ => step_inv

@[simp] theorem State.loadImage_params (s : State) (file : List Byte) : (s.loadImage file).params = s.params := by
  rw [State.loadImage_eq]

@[simp] theorem State.loadImages_params (files : List (List Byte)) :
    ∀ s : State, (s.loadImages files).params = s.params := by
  induction files with
  | nil => exact fun _ => rfl
  | cons file files ih => exact fun s => (ih (s.loadImage file)).trans (s.loadImage_params file)

theorem State.boot_params (p : Params) (files : List (List Byte)) (input : List Byte) (arrivals : List (List Byte)) :
    (State.boot p files input arrivals).params = p := State.loadImages_params files (State.resetWith p)

theorem State.boot_inv {p : Params} (hp : p.Valid) (files : List (List Byte)) (input : List Byte)
    (arrivals : List (List Byte)) : (State.boot p files input arrivals).Inv :=
  ⟨State.wf_loadImages files rfl, (State.boot_params p files input arrivals).symm ▸ hp⟩

/-- What holds at the start and is kept by every step holds of every state reached. -/
theorem Reaches.keeps {P : State → Prop} (hstep : ∀ t u, P t → step t = .next u → P u) {s t : State} (h : Reaches s t)
    (hs : P s) : P t := by
  induction h with
  | refl => exact hs
  | next _ hlast ih => exact hstep _ _ ih hlast

/-- Settles O57: the invariant and the parameters hold at boot, and each step keeps both. -/
theorem everyRunKeepsMemoryCanonical : Obligations.EveryRunKeepsMemoryCanonical := by
  intro p files input arrivals t hp hreach
  refine hreach.keeps (P := fun u => u.Inv ∧ u.params = p) ?step
    ⟨State.boot_inv hp files input arrivals, State.boot_params p files input arrivals⟩
  case step =>
    rintro u v ⟨hinv, hparams⟩ hstep
    exact ⟨step_inv hinv hstep, (step_params hstep).trans hparams⟩

/-- Settles O60: no move changes the parameters, and an image load is a change of the memory. -/
theorem parametersNeverChange : Obligations.ParametersNeverChange := by
  refine ⟨?exec, fun _ _ => step_params, State.boot_params⟩
  case exec =>
    intro i s t h
    obtain ⟨j, hwf, hsame⟩ := exists_wf_exec i
    exact exec_params hwf (hsame s ▸ h)

/-! ### What no instruction reads: the output and the run bit (R33, R37) -/

/-- The same state with the output changed by `o` and the run bit by `g`. -/
def State.relabel (o : List Byte → List Byte) (g : Bool → Bool) (s : State) : State :=
  { s with output := o s.output, running := g s.running }

theorem State.withOutputBefore_eq_relabel (s : State) (before : List Byte) :
    s.withOutputBefore before = s.relabel (before ++ ·) id := rfl

theorem State.withRunning_eq_relabel (s : State) (b : Bool) : s.withRunning b = s.relabel id fun _ => b := rfl

section
variable (o : List Byte → List Byte) (g : Bool → Bool) (s : State)

theorem State.relabel_kbdPoll : (s.relabel o g).kbdPoll = s.kbdPoll.relabel o g := by
  cases hin : s.input with
  | nil => rw [State.kbdPoll_empty hin]; exact State.kbdPoll_empty hin
  | cons b rest => rw [State.kbdPoll_byte hin]; exact State.kbdPoll_byte hin

theorem State.relabel_busAction (a : Word) : (s.relabel o g).busAction a = (s.busAction a).relabel o g := by
  by_cases ha : a = s.params.kbsrAddr
  · rw [ha, State.busAction_kbsr, ← State.relabel_kbdPoll]
    exact (s.relabel o g).busAction_kbsr
  · rw [State.busAction_ne s ha]
    exact State.busAction_ne (s.relabel o g) ha

theorem State.relabel_memRead (a : Word) :
    (s.relabel o g).memRead a = ((s.memRead a).1, (s.memRead a).2.relabel o g) := by
  rw [State.memRead, State.relabel_busAction]
  rfl

theorem State.relabel_load (dr : Reg) (a : Word) : (s.relabel o g).load dr a = (s.load dr a).relabel o g := by
  rw [State.load, State.relabel_memRead]
  rfl

theorem State.relabel_fetch : (s.relabel o g).fetch = (s.fetch.1, s.fetch.2.relabel o g) := by
  rw [State.fetch, State.relabel_memRead]
  rfl

theorem State.relabel_stop {g : Bool → Bool} (hg : g false = false) :
    (s.withRunning false).relabel o g = (s.relabel o g).withRunning false :=
  congrArg (fun b => { s with output := o s.output, running := b }) hg

theorem State.relabel_hostTurn : (s.relabel o g).hostTurn = s.hostTurn.relabel o g := by
  cases harr : s.arrivals with
  | nil => rw [State.hostTurn_none harr]; exact State.hostTurn_none harr
  | cons bs rest => rw [State.hostTurn_some harr]; exact State.hostTurn_some harr

end

section
variable {o : List Byte → List Byte} (ho : ∀ bs cs, o (bs ++ cs) = o bs ++ cs) (g : Bool → Bool) (s : State)
include ho

theorem State.relabel_emit (bs : List Byte) : (s.relabel o g).emit bs = (s.emit bs).relabel o g :=
  congrArg (fun out => { s with output := out, running := g s.running }) (ho s.output bs).symm

theorem State.relabel_serveByte (b : Byte) (rest bs : List Byte) :
    (s.relabel o g).serveByte b rest bs = (s.serveByte b rest bs).relabel o g :=
  congrArg (fun u => State.receive u b) (State.relabel_emit ho g (State.link { s with input := rest }) bs)

theorem scanString_relabel (bytes : Word → List Byte) (a : Word) :
    scanString bytes a (s.relabel o g) = (scanString bytes a s).relabel o g :=
  scanString_map (State.relabel o g) (State.relabel_busAction o g) (State.relabel_emit ho g)
    (fun _ => rfl) (fun _ => rfl) (fun _ => rfl) bytes a s

/-- An instruction does the same whatever the output and the run bit are, where appending to the output is all that `o`
sees of it; HALT must find that `g` leaves its 0. -/
theorem exec_relabel {i : Instr} {t : State} (hwf : i.wf = true) (hhalt : i = .trapHalt → g false = false)
    (h : exec i s = .next t) : exec i (s.relabel o g) = .next (t.relabel o g) := by
  cases i with
  | br mask off =>
    by_cases hbits : mask &&& condBits s.params s.cond = 0
    · rw [exec_br_of_eq_zero off hbits] at h
      cases h
      exact exec_br_of_eq_zero off hbits
    · rw [exec_br_of_ne_zero off hbits] at h
      cases h
      exact exec_br_of_ne_zero off hbits
  | addReg _ _ _ | addImm _ _ _ | andReg _ _ _ | andImm _ _ _ | not _ _ | lea _ _ | jmp _ | jsr _ | jsrr _ | st _ _
  | str _ _ _ | rti | res =>
    cases h
    rfl
  | ld _ _ | ldr _ _ _ =>
    cases h
    exact congrArg Host.Outcome.next (State.relabel_load o g s _ _)
  | ldi _ _ =>
    cases h
    rw [exec_ldi, State.relabel_memRead, State.relabel_load]
    rfl
  | sti _ _ =>
    cases h
    rw [exec_sti, State.relabel_memRead]
    rfl
  | trapGetc =>
    obtain ⟨hin, rfl⟩ | ⟨b, rest, hin, rfl⟩ := execTrapGetc_cases h
    · exact exec_trapGetc_of_empty hin
    · rw [exec_trapGetc]
      exact State.withByte_byte (s := s.relabel o g) hin _
  | trapIn =>
    cases hin : s.input with
    | nil =>
      rw [exec_trapIn_of_empty hin] at h
      cases h
      exact exec_trapIn_of_empty hin
    | cons b rest =>
      rw [exec_trapIn_of_byte hin] at h
      cases h
      rw [← State.relabel_serveByte ho]
      exact exec_trapIn_of_byte hin
  | trapOut =>
    rw [exec_trapOut] at h
    cases h
    rw [← State.relabel_emit ho]
    exact exec_trapOut _
  | trapPuts =>
    rw [exec_trapPuts] at h
    cases h
    rw [← scanString_relabel ho]
    exact exec_trapPuts _
  | trapPutsp =>
    rw [exec_trapPutsp] at h
    cases h
    rw [← scanString_relabel ho]
    exact exec_trapPutsp _
  | trapHalt =>
    rw [exec_trapHalt] at h
    cases h
    rw [State.relabel_stop o _ (hhalt rfl), ← State.relabel_emit ho]
    exact exec_trapHalt _
  | trap v =>
    have hv := wf_trap_iff.mp hwf
    rw [exec_trap_of_not_service hv] at h
    cases h
    exact exec_trap_of_not_service hv _

end

/-- Settles O54: the host's move, the fetch and the instruction do the same under the longer output. -/
theorem outputIsNeverRead : Obligations.OutputIsNeverRead := by
  intro s t before h
  obtain ⟨hrun, i, hdec, hwf, hexec⟩ := step_cases h
  have hrun' : (s.relabel (before ++ ·) id).running = true := hrun
  have hdec' : decode (s.relabel (before ++ ·) id).params s.hostTurn.fetch.1 = i := hdec
  rw [State.withOutputBefore_eq_relabel, State.withOutputBefore_eq_relabel, step_of_running hrun',
    State.relabel_hostTurn, State.relabel_fetch, hdec']
  exact exec_relabel (fun bs cs => (List.append_assoc before bs cs).symm) id _ hwf (fun _ => rfl) hexec

/-- The run bit of the answer aside, the run bit decides nothing. -/
theorem exec_withRunning {i : Instr} {s t : State} (hwf : i.wf = true) (b : Bool) (h : exec i s = .next t) :
    ∃ u, exec i (s.withRunning b) = .next u ∧ u.withRunning true = t.withRunning true := by
  by_cases hhalt : i = .trapHalt
  · subst hhalt
    rw [exec_trapHalt] at h
    cases h
    exact ⟨_, exec_trapHalt _, rfl⟩
  · exact ⟨_, exec_relabel (o := id) (fun _ _ => rfl) (fun _ => b) s hwf (fun heq => absurd heq hhalt) h, rfl⟩

/-- A step that ends with the run bit 0 ran HALT: nothing else in it clears the bit. -/
theorem decode_eq_halt_of_step {s t : State} (h : step s = .next t) (hstop : t.running = false) :
    decode s.params s.hostTurn.fetch.1 = .trapHalt := by
  obtain ⟨hrun, i, hdec, hwf, hexec⟩ := step_cases h
  by_contra hne
  rw [exec_running_of_ne_halt hwf hexec (hdec ▸ hne), State.fetch_running, State.hostTurn_running, hrun] at hstop
  exact Bool.noConfusion hstop

/-- Settles O47: HALT alone may clear the run bit, no move sets it, and `exec_withRunning`. -/
theorem runBitClearedOnlyByHalt : Obligations.RunBitClearedOnlyByHalt := by
  refine ⟨rfl, runningMachineAlwaysSteps, ?stopped, fun s => ⟨_, exec_trapHalt s, rfl⟩, ?halts, fun _ _ =>
    decode_eq_halt_of_step, ?stays, ?unread⟩
  case stopped =>
    intro s t hstop hstep
    rw [step_of_not_running hstop] at hstep
    cases hstep
  case halts =>
    intro s hrun hdec
    rw [step_of_running hrun, hdec]
    exact ⟨_, exec_trapHalt _, rfl⟩
  case stays =>
    intro i s t h
    obtain ⟨j, hwf, hsame⟩ := exists_wf_exec i
    exact exec_running_of_false hwf (hsame s ▸ h)
  case unread =>
    intro i s t b h
    obtain ⟨j, hwf, hsame⟩ := exists_wf_exec i
    rw [hsame]
    exact exec_withRunning hwf b (hsame s ▸ h)

/-! ### TRAP as a whole (R180, R226) -/

/-- What the tables say of TRAP. -/
theorem trap_tables {i : Instr} (h : i.opcode = .trap) :
    transfersControl i = false ∧ storesWord i = false ∧ (waitsForInput i = false → flagSource i = none) ∧
      ∀ r ∈ writtenRegs i, r = .r7 ∨ r = .r0 ∧ waitsForInput i = true := by
  cases i with
  | trapGetc | trapIn => exact ⟨rfl, rfl, Bool.noConfusion, by decide⟩
  | trapOut | trapPuts | trapPutsp | trapHalt | trap _ =>
    exact ⟨rfl, rfl, fun _ => rfl, fun _ hr => .inl (List.eq_of_mem_singleton hr)⟩
  | _ => cases h

/-- The link of a service is what R7 holds at its end, unless the service is held. -/
theorem exec_trap_link {i : Instr} {s t : State} (hop : i.opcode = .trap) (hwf : i.wf = true)
    (hin : waitsForInput i = true → s.input ≠ []) (h : exec i s = .next t) : t.reg .r7 = s.pc := by
  have served (b rest) := exec_of_waits_byte (i := i) (s := s) (b := b) (rest := rest)
  cases i with
  | trapGetc | trapIn =>
    obtain ⟨b, rest, hbyte⟩ := List.exists_cons_of_ne_nil (hin rfl)
    obtain ⟨bs, hserve⟩ := served b rest rfl hbyte
    rw [hserve] at h
    cases h
    exact s.serveByte_reg_r7 b rest bs
  | trapOut | trapHalt =>
    cases h
    exact s.link_reg_r7
  | trapPuts | trapPutsp =>
    cases h
    exact (scanString_reg _ _ s.link .r7).trans s.link_reg_r7
  | trap v =>
    rw [exec_trap_of_not_service (wf_trap_iff.mp hwf)] at h
    cases h
    exact s.link_reg_r7
  | _ => cases hop

/-- A service that waits takes exactly one byte when there is one. -/
theorem exec_takes_byte {i : Instr} {s t : State} (hwait : waitsForInput i = true) (hin : s.input ≠ [])
    (h : exec i s = .next t) : ∃ b, s.input = b :: t.input := by
  obtain ⟨b, rest, hbyte⟩ := List.exists_cons_of_ne_nil hin
  obtain ⟨bs, hserve⟩ := exec_of_waits_byte hwait hbyte
  rw [hserve] at h
  cases h
  exact ⟨b, hbyte⟩

theorem decodeTrap_ne_halt {v : BitVec 8} (h : v ≠ 0x25) : decodeTrap v ≠ .trapHalt := by
  rw [decodeTrap, if_neg h]
  split_ifs <;> exact nofun

/-- Settles O43: TRAP's rows in the tables, through the whole-machine rules; and with a byte pending no step is held,
so R7 holds the link and `pc` stays. -/
theorem trapLinksForEveryVector : Obligations.TrapLinksForEveryVector := by
  intro v s hin
  have hop := opcode_decodeTrap v
  have hwf := decodeTrap_wf v
  have hhalt : v ≠ 0x25 → decodeTrap v ≠ .trapHalt := decodeTrap_ne_halt
  generalize decodeTrap v = i at hin hop hwf hhalt ⊢
  obtain ⟨htransfer, hstore, hflag, hregs⟩ := trap_tables hop
  obtain ⟨t, h⟩ := exec_completes hwf s
  have hpc : t.pc = s.pc := (exec_pc_of_not_transfer hwf h htransfer).resolve_right
    fun ⟨hwait, hempty, _⟩ => hin hwait hempty
  refine ⟨t, h, exec_trap_link hop hwf hin h, hpc, ?others, ?flags, ?running, exec_output_append hwf h,
    exec_output_of_not_writer hwf h, exec_input_append hwf h, ?taken, exec_input_of_not_reader hwf h,
    exec_sameMemButDevice hwf h hstore, exec_sameMem hwf h hstore, exec_arrivals hwf h, exec_params hwf h⟩
  case others =>
    intro r h7 h0
    exact exec_reg_of_not_mem hwf h fun hmem => (hregs r hmem).elim h7 fun ⟨hr, _⟩ => h0 hr
  case flags =>
    intro hwait
    have h0 : .r0 ∉ writtenRegs i := by
      intro hmem
      obtain hr | ⟨_, hyes⟩ := hregs .r0 hmem
      · cases hr
      · rw [hwait] at hyes
        cases hyes
    exact ⟨exec_reg_of_not_mem hwf h h0, exec_cond_of_none hwf h (hflag hwait)⟩
  case running => exact fun hne => exec_running_of_ne_halt hwf h (hhalt hne)
  case taken => exact fun hwait => exec_takes_byte hwait (hin hwait) h

end Sys2Proof.Machine
